-- ==== Sys2Proof/Word.lean ====
section
/-! DEFINITION. The widths of the machine (00_scope.md R7, R9): every value is unsigned, nothing is sign-extended. -/

namespace Sys2Proof

/-- 8 bits: a general register, a memory cell, a timer, the immediate `kk`. -/
abbrev Byte := BitVec 8

/-- 16 bits: an opcode word, `pc`, `I`, a stack entry, `FAULT.info`. -/
abbrev Word := BitVec 16

/-- 12 bits: the address field `nnn` (R82). -/
abbrev Addr := BitVec 12

/-- 4 bits: the sprite height `n` (R82). -/
abbrev Nibble := BitVec 4

/-- The index of a general register, V0 to VF (R21). -/
abbrev Reg := Fin 16

end Sys2Proof
end

