-- ==== Sys2Proof/WellFormed.lean ====
section
/-! DEFINITION. Which terms of Instr stand for a word of the machine. The field types already bound every field; the
one thing left to check is that `SYS nnn` does not name a word of the FIXED rows (30_encoding.md R84, R85). -/

namespace Sys2Proof

/-- `SYS nnn` is every `0nnn` but 0x00E0 (`CLS`) and 0x00EE (`RET`); every other term is well formed. -/
def Instr.wf : Instr → Bool
  | .sys nnn => nnn != 0x0E0#12 && nnn != 0x0EE#12
  | _ => true

end Sys2Proof
end

