-- ==== Sys2Proof/Config.lean ====
section
/-! DEFINITION. The parameters of the hardware (00_scope.md R7) and its one free value. The font table, also a
parameter, stands in Machine/Font.lean. -/

namespace Sys2Proof.Config

/-- `MEM_SIZE` (R7): addresses 0x000 to 0xFFF. -/
abbrev memSize : Nat := 4096

/-- `PROG_BASE` (R7): where a ROM is loaded and where `pc` starts. -/
abbrev progBase : Nat := 0x200

/-- `ROM_MAX` (R7): the longest ROM `LOAD` accepts. -/
abbrev romMax : Nat := memSize - progBase

/-- `FONT_BYTES` (R7): the font table lies at 0x000 to 0x04F. -/
abbrev fontBytes : Nat := 80

/-- `FONT_STRIDE` (R7): bytes per glyph. -/
abbrev fontStride : Nat := 5

/-- `STACK_DEPTH` (R7). -/
abbrev stackDepth : Nat := 16

/-- `NKEYS` (R7). -/
abbrev nKeys : Nat := 16

/-- The byte of the `n`-th draw of `Cxkk` (42_load_and_alu.md R143, `Draw8()`), under no law: it has no body, so
nothing can be proved of its value. DESIGN CHOICE (log entry 1), safe. -/
opaque draw8 : Nat → Byte

end Sys2Proof.Config
end

