-- ==== Sys2Proof/Machine/State.lean ====
section
/-! DEFINITION. The state of CORE as plain data (10_state.md R20 to R41), the host's events, and reset. -/

namespace Sys2Proof.Machine

/-- `MEM` (R34, R50): the cells that differ from the reset contents, addresses strictly rising. -/
abbrev Memory := List Host.Cell

/-- `FAULT.cause` (R38, R200). Codes 6 and 7 never occur, so they have no name. -/
inductive FaultCause where
  /-- 0: no fault, the core runs -/
  | none
  /-- 1: an access above 4095, by a fetch, `Dxyn`, `Fx33`, `Fx55`, `Fx65` -/
  | outOfBoundsMemoryAccess
  /-- 2: `2nnn` with a full stack -/
  | stackOverflow
  /-- 3: `00EE` with an empty stack -/
  | stackUnderflow
  /-- 4: the fetched word matches no instruction -/
  | unknownOpcode
  /-- 5: `Ex9E`, `ExA1` with `V[x]` above 15 -/
  | keyIndexOutOfRange
deriving DecidableEq, Repr

/-- The fault register (R38): why the core is halted, and a 16-bit detail. -/
structure FaultReg where
  cause : FaultCause
  info : Word
deriving DecidableEq, Repr

/-- The events of R5, in the order the host issues them. `setKey` takes any number, since the host could send one; an
index outside 0..15 is outside the event's domain (R216) and is refused by name. -/
inductive Event where
  | cycle
  | reset
  | load (rom : List Byte)
  | setKey (k : Nat) (pressed : Bool)
  | tick
  | readFb
deriving DecidableEq, Repr

/-- What an event answers to the host that issued it. -/
inductive Reply where
  /-- nothing -/
  | none
  /-- the refusal of a `LOAD` (R60, R207) -/
  | oversizeRom
  /-- the 2048 pixels of a `READ_FB` (R218) -/
  | frame (fb : Vector (BitVec 64) 32)
deriving DecidableEq, Repr

/-- Every piece of state of CORE (R20), then the model's own two fields, `sched` and `draws`. -/
structure State where
  /-- `V[0]` to `V[15]` (R21); `V[15]` is VF, the flag (R22) -/
  v : Vector Byte 16
  /-- the index register `I` (R27) -/
  i : Word
  /-- the program counter (R24) -/
  pc : Word
  /-- `SP`, how many entries are live, 0 to 16 (R28) -/
  sp : Fin 17
  /-- `STACK[0]` to `STACK[15]`; the live ones are those below `sp` (R28) -/
  stack : Vector Word 16
  /-- `MEM` (R34) -/
  mem : Memory
  /-- `FB` (R35): entry `r` is row `r`, its bit `c` (bit 0 least significant) is column `c` (log entry 11) -/
  fb : Vector (BitVec 64) 32
  /-- `KEYS` (R36): bit `k` is key `k`, 1 means pressed -/
  keys : BitVec 16
  /-- the delay timer `DT` (R37) -/
  dt : Byte
  /-- the sound timer `ST` (R37) -/
  st : Byte
  /-- `FAULT` (R38) -/
  fault : FaultReg
  /-- MODEL's own: the host's schedule, the events still to come (R5, R6); empty means the host goes on issuing `CYCLE`.
  DESIGN CHOICE (log entry 4) -/
  sched : List Event
  /-- MODEL's own: how many bytes `Cxkk` has drawn; the free byte is `Config.draw8` of it. DESIGN CHOICE (log entry 1) -/
  draws : Nat
deriving DecidableEq, Repr

/-- `Host.Outcome`'s fault. It has no constructor: this machine never stops outside its own `FAULT` register, every
fault of the spec is a next state with `FAULT` written and the core halted (R203; log entry 7). Nobody raises one. -/
inductive Fault where
deriving DecidableEq, Repr

/-- Why a step gives no meaning. -/
inductive Refusal where
  /-- an instruction without a meaning, raised only by a refused arm of `exec`; there is none. Safe. -/
  | notModelled (mnemonic : String)
  /-- raised by the event `SET_KEY(k, _)` with `k` outside 0..15, which the spec gives no meaning (R216,
  93_implementation_defined.md U7). Safe: the model stops. -/
  | setKeyOutsideDomain (k : Nat)
deriving DecidableEq, Repr

/-- The machine right after `RESET` (R41, R230). Memory lists nothing: an unlisted address reads as its reset contents.
The stack entries are a DESIGN CHOICE (log entry 3): R41 leaves them unspecified. -/
def State.reset : State where
  v := Vector.replicate 16 0
  i := 0
  pc := BitVec.ofNat 16 Config.progBase
  sp := 0
  stack := Vector.replicate 16 0
  mem := []
  fb := Vector.replicate 32 0
  keys := 0
  dt := 0
  st := 0
  fault := ⟨.none, 0⟩
  sched := []
  draws := 0

end Sys2Proof.Machine
end

