-- ==== Sys2Proof/Machine/Ops.lean ====
section
/-! DEFINITION. The named operations over registers, memory, stack, framebuffer and keys: the pseudocode primitives of
00_scope.md R11, and taking a fault (60_exceptions.md R203). -/

namespace Sys2Proof.Machine

/-- A piece of pseudocode that may raise: `.ok` goes on, `.error s` is the state in which the instruction stopped. -/
abbrev Res (α : Type) := Except State α

/-! ### Taking a fault -/

/-- `raise <Fault>(info)` (R203): the one way into the halt. It writes `FAULT` and nothing else; there is no vector, no
saved register, no mode. There is no return beside it: only the event `RESET` leaves the halt (R205). -/
def raise (cause : FaultCause) (info : Word) (s : State) : State := { s with fault := ⟨cause, info⟩ }

/-- An instruction ends in a next state whether or not it raised (R203, R204). -/
def finish : Res State → Host.Outcome State Fault Refusal
  | .ok s => .next s
  | .error s => .next s

/-! ### General registers (R21, R22) -/

/-- `V[x]`. -/
def State.getV (s : State) (x : Reg) : Byte := s.v[x]

/-- `V[x] <- b`. No register is hard-wired. -/
def State.setV (s : State) (x : Reg) (b : Byte) : State := { s with v := s.v.set x b }

/-! ### Loops over ascending indices -/

/-- `for k = 0 .. n-1 in ascending order`, with a body that may raise; it stops where the body raises (R204). -/
def forUpTo (body : Nat → State → Res State) : Nat → State → Res State
  | 0, s => .ok s
  | n + 1, s =>
    match forUpTo body n s with
    | .ok t => body n t
    | .error e => .error e

/-- The same loop with a body that cannot raise. -/
def iterUpTo (body : Nat → State → State) : Nat → State → State
  | 0, s => s
  | n + 1, s => body n (iterUpTo body n s)

/-! ### Memory (20_memory.md) -/

/-- The byte memory holds at an address. -/
def Memory.read : Memory → Nat → Byte
  | [], a => unlistedByte a
  | (k, b) :: rest, a => if k = a then b else Memory.read rest a

/-- Memory with one cell changed, in canonical form: a cell that holds its reset contents is not listed. -/
def Memory.write : Memory → Nat → Byte → Memory
  | [], a, b => if b = unlistedByte a then [] else [(a, b)]
  | (k, u) :: rest, a, b =>
    if a < k then (if b = unlistedByte a then (k, u) :: rest else (a, b) :: (k, u) :: rest)
    else if a = k then (if b = unlistedByte a then rest else (a, b) :: rest)
    else (k, u) :: Memory.write rest a b

/-- Consecutive bytes from an address on. -/
def Memory.writeList : Memory → Nat → List Byte → Memory
  | m, _, [] => m
  | m, a, b :: rest => Memory.write (Memory.writeList m (a + 1) rest) a b

/-- The canonical form from an address on: addresses rise, exist, and hold something else than their reset contents. -/
def Memory.wfFrom : Nat → Memory → Bool
  | _, [] => true
  | lo, (a, b) :: rest => decide (lo ≤ a) && decide (a < Config.memSize) && b != unlistedByte a && Memory.wfFrom (a + 1) rest

/-- The canonical form of memory. -/
def Memory.wf (m : Memory) : Bool := Memory.wfFrom 0 m

/-- `MEM[a]`. -/
def State.readByte (s : State) (a : Nat) : Byte := Memory.read s.mem a

/-- `MemRead(a, 1)` (R54). No side effect. -/
def memRead (a : Nat) (s : State) : Res Byte :=
  if a < Config.memSize then .ok (s.readByte a) else .error (raise .outOfBoundsMemoryAccess (BitVec.ofNat 16 a) s)

/-- `MemWrite(a, 1, b)` (R55). There is no write protection (R52). -/
def memWrite (a : Nat) (b : Byte) (s : State) : Res State :=
  if a < Config.memSize then .ok { s with mem := Memory.write s.mem a b }
  else .error (raise .outOfBoundsMemoryAccess (BitVec.ofNat 16 a) s)

/-! ### The call stack (10_state.md) -/

/-- `Push(w)` (R31): the check comes first, a failing push changes nothing but `FAULT`. -/
def push (w : Word) (s : State) : Res State :=
  if h : s.sp.val < Config.stackDepth then
    .ok { s with stack := s.stack.set s.sp.val w, sp := ⟨s.sp.val + 1, Nat.succ_lt_succ h⟩ }
  else .error (raise .stackOverflow w s)

/-- `Pop()` (R32): the value and the state after; the entry keeps its bits but is no longer live. -/
def pop (s : State) : Res (Word × State) :=
  if h : 0 < s.sp.val then
    .ok (s.stack[s.sp.val - 1]'(by omega), { s with sp := ⟨s.sp.val - 1, by omega⟩ })
  else .error (raise .stackUnderflow 0 s)

/-! ### The framebuffer (R35) -/

/-- `FB[r][c]`. -/
def State.pixel (s : State) (r : Fin 32) (c : Fin 64) : Bool := s.fb[r].getLsbD c

/-- `FB[r][c] <- FB[r][c] ^ 1`. -/
def State.flipPixel (s : State) (r : Fin 32) (c : Fin 64) : State :=
  { s with fb := s.fb.set r (s.fb[r] ^^^ BitVec.twoPow 64 c) }

/-! ### The key register (R36) -/

/-- `KEYS[k] = 1`. -/
def State.keyDown (s : State) (k : Nat) : Bool := s.keys.getLsbD k

/-- The least pressed key, scanning in ascending order (45_input_and_timers.md R182). -/
def State.lowestKey (s : State) : Option (Fin 16) := (List.finRange 16).find? fun k => s.keyDown k

/-! ### The program counter (R24, R25) -/

/-- `pc <- target`. -/
def State.jumpTo (s : State) (target : Word) : State := { s with pc := target }

/-- `pc <- pc + 2`: past a fetched word, or past the word a skip passes over (R124). Never reduced (log entry 8). -/
def State.advance (s : State) : State := { s with pc := s.pc + 2 }

/-- `pc <- pc - 2`: back to the instruction just fetched (R182). -/
def State.rewind (s : State) : State := { s with pc := s.pc - 2 }

/-! ### The free byte (R143) -/

/-- `Draw8()`: a byte under no law, a fresh one at every draw (log entry 1). -/
def draw (s : State) : Byte × State := (Config.draw8 s.draws, { s with draws := s.draws + 1 })

/-! ### What the host can read at any time (R217) -/

/-- The output `SOUND` (60_exceptions.md R214). -/
def State.sound (s : State) : Bool := s.st != 0

/-- The 3-bit code of a cause (R38, R200). -/
def FaultCause.code : FaultCause → BitVec 3
  | .none => 0
  | .outOfBoundsMemoryAccess => 1
  | .stackOverflow => 2
  | .stackUnderflow => 3
  | .unknownOpcode => 4
  | .keyIndexOutOfRange => 5

/-- `FAULT` as the host reads it: `cause` in bits 2:0, `info` in bits 18:3 (R38). -/
def State.faultWord (s : State) : BitVec 19 := (s.fault.info ++ s.fault.cause.code : BitVec (16 + 3))

/-- The core is halted (R38, R103). -/
def State.halted (s : State) : Bool := s.fault.cause != .none

end Sys2Proof.Machine
end

