-- ==== Sys2Proof/Machine/Operands.lean ====
section
/-! DEFINITION. The operand forms (30_encoding.md R83, 43_index_and_memory.md R156). A register named by a field is read
and written by `getV` and `setV`, an immediate stands for itself; what is left is here. -/

namespace Sys2Proof.Machine

/-- VF, the flag (R22). -/
abbrev vF : Reg := 15

/-- The register a loop index names: `V[k]`, `k` at most 15. -/
def regOfNat (k : Nat) : Reg := Fin.ofNat 16 k

/-- `nnn` as a 16-bit value, zero-extended (R83, R150). -/
def wordOfAddr (nnn : Addr) : Word := nnn.zeroExtend 16

/-- A register as a 16-bit value, zero-extended (R83). -/
def wordOfByte (b : Byte) : Word := b.zeroExtend 16

/-- The one addressing mode (R156): the plain sum `I + offset`, never reduced (R57). -/
def effAddr (s : State) (offset : Nat) : Nat := s.i.toNat + offset

/-- The key index operand of `Ex9E` and `ExA1`: the whole of `V[x]`, a fault above 15 (R186). -/
def keyIndex (x : Reg) (s : State) : Res Nat :=
  if (s.getV x).toNat < Config.nKeys then .ok (s.getV x).toNat
  else .error (raise .keyIndexOutOfRange (wordOfByte (s.getV x)) s)

/-- The column of a sprite pixel: `(V[x] + col) mod 64` (44_display.md R167). -/
def pixelCol (x : Reg) (col : Nat) (s : State) : Fin 64 := Fin.ofNat 64 ((s.getV x).toNat + col)

/-- The row of a sprite pixel: `(V[y] + row) mod 32` (R167). -/
def pixelRow (y : Reg) (row : Nat) (s : State) : Fin 32 := Fin.ofNat 32 ((s.getV y).toNat + row)

/-- Bit `7 - col` of a sprite byte: most significant bit first (R166). -/
def spriteBit (b : Byte) (col : Nat) : Bool := b.getLsbD (7 - col)

/-- `v div 100` (43_index_and_memory.md R153). -/
def bcdHundreds (b : Byte) : Byte := BitVec.ofNat 8 (b.toNat / 100)
/-- `(v div 10) mod 10` (R153). -/
def bcdTens (b : Byte) : Byte := BitVec.ofNat 8 (b.toNat / 10 % 10)
/-- `v mod 10` (R153). -/
def bcdUnits (b : Byte) : Byte := BitVec.ofNat 8 (b.toNat % 10)

end Sys2Proof.Machine
end

