-- ==== Sys2Proof/Machine/Flags.lean ====
section
/-! DEFINITION. Every flag computation (10_state.md R23): the byte VF receives, always 0 or 1. The collision flag of
`Dxyn` is set pixel by pixel in Machine/Display.lean. -/

namespace Sys2Proof.Machine

/-- `1 if c else 0`. -/
def flagOf (c : Bool) : Byte := if c then 1 else 0

/-- Carry out of bit 7 (42_load_and_alu.md R137): the exact sum exceeds 255. -/
def carryFlag (a b : Byte) : Byte := flagOf (decide (255 < a.toNat + b.toNat))

/-- Strictly greater (R138, R140): 0 when equal. -/
def greaterFlag (a b : Byte) : Byte := flagOf (decide (b.toNat < a.toNat))

/-- The bit a right shift drops, bit 0 (R139). -/
def lowBitFlag (a : Byte) : Byte := flagOf (a.getLsbD 0)

/-- The bit a left shift drops, bit 7 (R141). -/
def highBitFlag (a : Byte) : Byte := flagOf (a.getLsbD 7)

end Sys2Proof.Machine
end

