-- ==== Sys2Proof/Machine/Alu.lean ====
section
/-! DEFINITION. `6xkk`, `7xkk`, `8xy0` to `8xy7`, `8xyE`, `Cxkk` (42_load_and_alu.md). The five flag writers follow R142:
VF first, then the result, which reads the registers as the flag write left them. -/

namespace Sys2Proof.Machine

/-- `6xkk` LD (R131). -/
def execLdImm (x : Reg) (kk : Byte) (s : State) : Host.Outcome State Fault Refusal := .next (s.setV x kk)

/-- `7xkk` ADD (R132): no flag. -/
def execAddImm (x : Reg) (kk : Byte) (s : State) : Host.Outcome State Fault Refusal :=
  .next (s.setV x (s.getV x + kk))

/-- `8xy0` LD (R133). -/
def execLdReg (x y : Reg) (s : State) : Host.Outcome State Fault Refusal := .next (s.setV x (s.getV y))

/-- `8xy1` OR (R134): no flag. -/
def execOrReg (x y : Reg) (s : State) : Host.Outcome State Fault Refusal :=
  .next (s.setV x (s.getV x ||| s.getV y))

/-- `8xy2` AND (R135): no flag. -/
def execAndReg (x y : Reg) (s : State) : Host.Outcome State Fault Refusal :=
  .next (s.setV x (s.getV x &&& s.getV y))

/-- `8xy3` XOR (R136): no flag. -/
def execXorReg (x y : Reg) (s : State) : Host.Outcome State Fault Refusal :=
  .next (s.setV x (s.getV x ^^^ s.getV y))

/-- `8xy4` ADD (R137): the sum is computed before VF is written. -/
def execAddReg (x y : Reg) (s : State) : Host.Outcome State Fault Refusal :=
  .next ((s.setV vF (carryFlag (s.getV x) (s.getV y))).setV x (s.getV x + s.getV y))

/-- `V[x] <- (V[a] - V[b]) & 0xFF`, reading the registers of the state it is given. -/
def subInto (x a b : Reg) (s : State) : State := s.setV x (s.getV a - s.getV b)

/-- `8xy5` SUB (R138). -/
def execSub (x y : Reg) (s : State) : Host.Outcome State Fault Refusal :=
  .next (subInto x x y (s.setV vF (greaterFlag (s.getV x) (s.getV y))))

/-- `V[x] <- V[x] >> 1`, reading the register of the state it is given. -/
def shiftRightInto (x : Reg) (s : State) : State := s.setV x (s.getV x >>> 1)

/-- `8xy6` SHR (R139): `V[x]` only, `y` is ignored. -/
def execShr (x _y : Reg) (s : State) : Host.Outcome State Fault Refusal :=
  .next (shiftRightInto x (s.setV vF (lowBitFlag (s.getV x))))

/-- `8xy7` SUBN (R140). -/
def execSubn (x y : Reg) (s : State) : Host.Outcome State Fault Refusal :=
  .next (subInto x y x (s.setV vF (greaterFlag (s.getV y) (s.getV x))))

/-- `V[x] <- (V[x] << 1) & 0xFF`, reading the register of the state it is given. -/
def shiftLeftInto (x : Reg) (s : State) : State := s.setV x (s.getV x <<< 1)

/-- `8xyE` SHL (R141): `V[x]` only, `y` is ignored. -/
def execShl (x _y : Reg) (s : State) : Host.Outcome State Fault Refusal :=
  .next (shiftLeftInto x (s.setV vF (highBitFlag (s.getV x))))

/-- `Cxkk` RND (R143): a free byte and-ed with `kk`. -/
def execRnd (x : Reg) (kk : Byte) (s : State) : Host.Outcome State Fault Refusal :=
  .next ((draw s).2.setV x ((draw s).1 &&& kk))

end Sys2Proof.Machine
end

