-- ==== Sys2Proof/Machine/Display.lean ====
section
/-! DEFINITION. `00E0` and `Dxyn` (44_display.md). -/

namespace Sys2Proof.Machine

/-- `00E0` CLS (R165): all 2048 pixels become 0. -/
def execCls (s : State) : Host.Outcome State Fault Refusal := .next { s with fb := Vector.replicate 32 0 }

/-- One set bit of a sprite (R167): the coordinates are read here, from the registers as they are now, VF becomes 1 if
the pixel is 1, and the pixel flips. -/
def drawPixel (x y : Reg) (row col : Nat) (s : State) : State :=
  (if s.pixel (pixelRow y row s) (pixelCol x col s) then s.setV vF 1 else s).flipPixel
    (pixelRow y row s) (pixelCol x col s)

/-- One bit of a sprite byte: a 0 bit does nothing (R166). -/
def drawBit (x y : Reg) (b : Byte) (row col : Nat) (s : State) : State :=
  if spriteBit b col then drawPixel x y row col s else s

/-- One row of a sprite: its byte is read, then its 8 bits are drawn, left to right. -/
def drawRow (x y : Reg) (row : Nat) (s : State) : Res State :=
  match memRead (effAddr s row) s with
  | .ok b => .ok (iterUpTo (drawBit x y b row) 8 s)
  | .error e => .error e

/-- `Dxyn` DRW (R167): VF is cleared, then the rows are drawn, stopping at the first read that faults. -/
def execDrw (x y : Reg) (n : Nibble) (s : State) : Host.Outcome State Fault Refusal :=
  finish (forUpTo (drawRow x y) n.toNat (s.setV vF 0))

end Sys2Proof.Machine
end

