-- ==== Sys2Proof/Machine/Flow.lean ====
section
/-! DEFINITION. `0nnn`, `00EE`, `1nnn`, `2nnn`, `Bnnn` (40_cycle_and_flow.md). In every meaning of the package `pc`
already holds the address after the instruction's word (00_scope.md R12). -/

namespace Sys2Proof.Machine

/-- `0nnn` SYS (R104): no operation, `nnn` is ignored. -/
def execSys (_nnn : Addr) (s : State) : Host.Outcome State Fault Refusal := .next s

/-- `00EE` RET (R105): `pc <- Pop()`. -/
def execRet (s : State) : Host.Outcome State Fault Refusal :=
  finish (match pop s with
    | .ok (target, t) => .ok (t.jumpTo target)
    | .error e => .error e)

/-- `1nnn` JP (R106). -/
def execJp (nnn : Addr) (s : State) : Host.Outcome State Fault Refusal := .next (s.jumpTo (wordOfAddr nnn))

/-- `2nnn` CALL (R107): `Push(pc)`, then the jump, which a failing push does not reach. -/
def execCall (nnn : Addr) (s : State) : Host.Outcome State Fault Refusal :=
  finish (match push s.pc s with
    | .ok t => .ok (t.jumpTo (wordOfAddr nnn))
    | .error e => .error e)

/-- `Bnnn` JP V0 (R108): `nnn + V[0]`, a plain sum, at most 0x10FE. -/
def execJpV0 (nnn : Addr) (s : State) : Host.Outcome State Fault Refusal :=
  .next (s.jumpTo (wordOfAddr nnn + wordOfByte (s.getV 0)))

end Sys2Proof.Machine
end

