-- ==== Sys2Proof/Machine/IndexMem.lean ====
section
/-! DEFINITION. `Annn`, `Fx1E`, `Fx29`, `Fx33`, `Fx55`, `Fx65` (43_index_and_memory.md). None of the last three
changes `I` (R156). -/

namespace Sys2Proof.Machine

/-- `I <- w`. -/
def State.setI (s : State) (w : Word) : State := { s with i := w }

/-- `Annn` LD I (R150). -/
def execLdI (nnn : Addr) (s : State) : Host.Outcome State Fault Refusal := .next (s.setI (wordOfAddr nnn))

/-- `Fx1E` ADD I (R151): modulo 4096, no flag. -/
def execAddI (x : Reg) (s : State) : Host.Outcome State Fault Refusal :=
  .next (s.setI ((s.i + wordOfByte (s.getV x)) &&& 0xFFF))

/-- `Fx29` LD F (R152): the whole of `V[x]` times 5. -/
def execLdF (x : Reg) (s : State) : Host.Outcome State Fault Refusal :=
  .next (s.setI (BitVec.ofNat 16 ((s.getV x).toNat * Config.fontStride)))

/-- The digit `Fx33` writes at offset `k`: hundreds, tens, units (R153). -/
def bcdDigit (b : Byte) : Nat → Byte
  | 0 => bcdHundreds b
  | 1 => bcdTens b
  | _ => bcdUnits b

/-- `Fx33` LD B (R153): three writes in ascending order, stopping at the first that faults. -/
def execLdB (x : Reg) (s : State) : Host.Outcome State Fault Refusal :=
  finish (forUpTo (fun k t => memWrite (effAddr t k) (bcdDigit (s.getV x) k) t) 3 s)

/-- One transfer of `Fx55`: `MemWrite(I + k, 1, V[k])`. -/
def storeReg (k : Nat) (s : State) : Res State := memWrite (effAddr s k) (s.getV (regOfNat k)) s

/-- `Fx55` LD [I],Vx (R154): `V[0]` to `V[x]`, ascending, stopping at the first write that faults. -/
def execStRegs (x : Reg) (s : State) : Host.Outcome State Fault Refusal := finish (forUpTo storeReg (x.val + 1) s)

/-- One transfer of `Fx65`: `V[k] <- MemRead(I + k, 1)`. -/
def loadReg (k : Nat) (s : State) : Res State :=
  match memRead (effAddr s k) s with
  | .ok b => .ok (s.setV (regOfNat k) b)
  | .error e => .error e

/-- `Fx65` LD Vx,[I] (R155): `V[0]` to `V[x]`, ascending, stopping at the first read that faults. -/
def execLdRegs (x : Reg) (s : State) : Host.Outcome State Fault Refusal := finish (forUpTo loadReg (x.val + 1) s)

end Sys2Proof.Machine
end

