-- ==== Sys2Proof/Machine/Skips.lean ====
section
/-! DEFINITION. `3xkk`, `4xkk`, `5xy0`, `9xy0` (41_skips.md). -/

namespace Sys2Proof.Machine

/-- What a skip is (R124): when the condition holds, the next word is passed over. -/
def skipIf (c : Bool) (s : State) : State := if c then s.advance else s

/-- `3xkk` SE (R120). -/
def execSeImm (x : Reg) (kk : Byte) (s : State) : Host.Outcome State Fault Refusal :=
  .next (skipIf (s.getV x == kk) s)

/-- `4xkk` SNE (R121). -/
def execSneImm (x : Reg) (kk : Byte) (s : State) : Host.Outcome State Fault Refusal :=
  .next (skipIf (s.getV x != kk) s)

/-- `5xy0` SE (R122). -/
def execSeReg (x y : Reg) (s : State) : Host.Outcome State Fault Refusal :=
  .next (skipIf (s.getV x == s.getV y) s)

/-- `9xy0` SNE (R123). -/
def execSneReg (x y : Reg) (s : State) : Host.Outcome State Fault Refusal :=
  .next (skipIf (s.getV x != s.getV y) s)

end Sys2Proof.Machine
end

