-- ==== Sys2Proof/Machine/Input.lean ====
section
/-! DEFINITION. `Ex9E`, `ExA1`, `Fx0A`, `Fx07`, `Fx15`, `Fx18` (45_input_and_timers.md). -/

namespace Sys2Proof.Machine

/-- `Ex9E` SKP (R180). -/
def execSkp (x : Reg) (s : State) : Host.Outcome State Fault Refusal :=
  finish (match keyIndex x s with
    | .ok k => .ok (skipIf (s.keyDown k) s)
    | .error e => .error e)

/-- `ExA1` SKNP (R181). -/
def execSknp (x : Reg) (s : State) : Host.Outcome State Fault Refusal :=
  finish (match keyIndex x s with
    | .ok k => .ok (skipIf (!s.keyDown k) s)
    | .error e => .error e)

/-- `Fx07` LD Vx,DT (R183). -/
def execLdVxDt (x : Reg) (s : State) : Host.Outcome State Fault Refusal := .next (s.setV x s.dt)

/-- `Fx0A` LD Vx,K (R182): the least pressed key, or back to this instruction. -/
def execLdVxK (x : Reg) (s : State) : Host.Outcome State Fault Refusal :=
  match s.lowestKey with
  | some k => .next (s.setV x (BitVec.ofNat 8 k.val))
  | none => .next s.rewind

/-- `Fx15` LD DT,Vx (R184). -/
def execLdDtVx (x : Reg) (s : State) : Host.Outcome State Fault Refusal := .next { s with dt := s.getV x }

/-- `Fx18` LD ST,Vx (R185). -/
def execLdStVx (x : Reg) (s : State) : Host.Outcome State Fault Refusal := .next { s with st := s.getV x }

end Sys2Proof.Machine
end

