-- ==== Sys2Proof/Machine/Cycle.lean ====
section
/-! DEFINITION. The `CYCLE` event (40_cycle_and_flow.md R100 to R103): fetch, advance, decode, execute. -/

namespace Sys2Proof.Machine

/-- Stage 1, fetch (R101): two byte reads from memory as it is now, the first at `pc`; `pc` is not yet changed. -/
def fetch (s : State) : Res Word :=
  match memRead s.pc.toNat s with
  | .error e => .error e
  | .ok hi =>
    match memRead (s.pc.toNat + 1) s with
    | .error e => .error e
    | .ok lo => .ok (wordOfBytes hi lo)

/-- Stages 3 and 4: decode the word and execute it, or raise `UnknownOpcode` (R102). `pc` is already advanced. -/
def runWord (w : Word) (s : State) : Host.Outcome State Fault Refusal :=
  match decodeWord w with
  | .ok i => exec i s
  | .error _ => finish (.error (raise .unknownOpcode w s))

/-- One `CYCLE` (R100). A halted core does nothing (R103). -/
def cycle (s : State) : Host.Outcome State Fault Refusal :=
  if s.halted then .next s
  else
    match fetch s with
    | .error e => finish (.error e)
    | .ok w => runWord w s.advance

/-- A state with the word `w` where the next fetch reads it, when `pc` is an address a fetch can succeed at. -/
def placeWord (w : Word) (s : State) : State :=
  if s.pc.toNat + 1 < Config.memSize then
    { s with mem := Memory.writeList s.mem s.pc.toNat [w.extractLsb' 8 8, w.extractLsb' 0 8] }
  else s

/-- A state whose next step is a `CYCLE` that fetches: no event before it and no recorded fault (log entry 12). -/
def readyToFetch (s : State) : State := { s with sched := [], fault := ⟨.none, 0⟩ }

end Sys2Proof.Machine
end

