-- ==== Sys2Proof/Machine/HostEvents.lean ====
section
/-! DEFINITION. The host's events (00_scope.md R5): `LOAD`, `RESET`, `TICK`, `SET_KEY`, `READ_FB`, and an event of the
schedule as a whole. None looks at `FAULT`, and only `RESET` clears it (60_exceptions.md R205). -/

namespace Sys2Proof.Machine

/-- `RESET` (70_reset_and_hazards.md R230): all state of CORE to its reset value. The model's own two fields are no
state of CORE: the host's later events stay, and the draws go on (log entries 1 and 4). -/
def resetEvent (s : State) : State := { State.reset with sched := s.sched, draws := s.draws }

/-- `LOAD(rom)` (20_memory.md R60): `none` is the refusal `OversizeRom`, decided before anything is written. -/
def loadRom (rom : List Byte) (s : State) : Option State :=
  if Config.romMax < rom.length then none
  else some { s with mem := Memory.writeList s.mem Config.progBase rom }

/-- `if T > 0 then T <- T - 1` (60_exceptions.md R212). -/
def countDown (t : Byte) : Byte := if t = 0 then 0 else t - 1

/-- `TICK` (R212). -/
def tick (s : State) : State := { s with dt := countDown s.dt, st := countDown s.st }

/-- `SET_KEY(k, pressed)` for a key in the event's domain (R216). -/
def setKey (k : Fin 16) (pressed : Bool) (s : State) : State :=
  { s with keys := if pressed then s.keys ||| BitVec.twoPow 16 k else s.keys &&& ~~~(BitVec.twoPow 16 k) }

/-- The state after an event. A refused `LOAD` changes nothing and stops nothing (R207; log entry 6); a `SET_KEY`
outside 0..15 has no meaning and is refused by name (R216; log entry 5). -/
def applyEvent (e : Event) (s : State) : Host.Outcome State Fault Refusal :=
  match e with
  | .cycle => cycle s
  | .reset => .next (resetEvent s)
  | .load rom => .next ((loadRom rom s).getD s)
  | .setKey k pressed => if h : k < Config.nKeys then .next (setKey ⟨k, h⟩ pressed s) else .refused (.setKeyOutsideDomain k)
  | .tick => .next (tick s)
  | .readFb => .next s

/-- What the event answers to the host that issues it in this state (R60, R207, R218). -/
def reply (e : Event) (s : State) : Reply :=
  match e with
  | .load rom => if (loadRom rom s).isSome then .none else .oversizeRom
  | .readFb => .frame s.fb
  | .cycle => .none
  | .reset => .none
  | .setKey _ _ => .none
  | .tick => .none

end Sys2Proof.Machine
end

