-- ==== Sys2Proof/Machine/Step.lean ====
section
/-! DEFINITION. One step of the machine: the next event of the host's schedule (00_scope.md R5). -/

namespace Sys2Proof.Machine

/-- One atomic event: the first of the schedule, or a `CYCLE` when the schedule lists no more (log entry 4). -/
def step (s : State) : Host.Outcome State Fault Refusal :=
  match s.sched with
  | [] => cycle s
  | e :: rest => applyEvent e { s with sched := rest }

/-- `s` with the instruction whose bits are `w` (those at and above `nbits` zero) placed at `pc`, ready for the next
step to fetch and run it (log entry 12). -/
def State.withFetchWord (s : State) (nbits w : Nat) : State :=
  placeWord (BitVec.ofNat 16 (w % 2 ^ nbits)) (readyToFetch s)

end Sys2Proof.Machine
end

