-- ==== Sys2Proof/Safety.lean ====
section
/-! DEFINITION. The terms claims are written in: words by their bit fields, the next event, frames, the state invariant,
who writes and who raises what, and the sprite blit as one fold over pixels. -/

namespace Sys2Proof.Safety

open Sys2Proof.Machine

/-! ### Words of the opcode map, by arithmetic on their fields (30_encoding.md R81, R82) -/

/-- `gnnn`. -/
def patNnn (g : Nat) (nnn : Addr) : Word := BitVec.ofNat 16 (g * 4096 + nnn.toNat)

/-- `gxkk`. -/
def patXkk (g : Nat) (x : Reg) (kk : Byte) : Word := BitVec.ofNat 16 (g * 4096 + x.val * 256 + kk.toNat)

/-- `gxyn`. -/
def patXyn (g : Nat) (x y : Reg) (n : Nat) : Word := BitVec.ofNat 16 (g * 4096 + x.val * 256 + y.val * 16 + n)

/-- The big-endian word at an address (20_memory.md R53). -/
def wordAt (s : State) (a : Nat) : Word := BitVec.ofNat 16 ((s.readByte a).toNat * 256 + (s.readByte (a + 1)).toNat)

/-! ### Which event comes next -/

/-- The core is not halted (10_state.md R38). -/
abbrev Runs (s : State) : Prop := s.fault.cause = .none

/-- The next event is a `CYCLE`. -/
abbrev CycleNext (s : State) : Prop := s.sched = [] ∨ s.sched.head? = some .cycle

/-- The state once the next event is taken off the schedule. -/
def afterEvent (s : State) : State := { s with sched := s.sched.tail }

/-! ### Frames -/

/-- Every register not listed keeps its value. -/
abbrev KeepsRegs (s t : State) (written : List Reg) : Prop := ∀ r, r ∉ written → t.getV r = s.getV r

/-- Every byte of memory outside the listed addresses reads as before. -/
abbrev KeepsMem (s t : State) (stored : List Nat) : Prop := ∀ a, a ∉ stored → t.readByte a = s.readByte a

/-- Only the listed registers may change: every other field, every other register, every byte of memory is kept. -/
abbrev OnlyRegs (s t : State) (written : List Reg) : Prop :=
  t = { s with v := t.v } ∧ KeepsRegs s t written ∧ KeepsMem s t []

/-- Only `pc` may change. -/
abbrev OnlyPc (s t : State) : Prop := t = { s with pc := t.pc } ∧ KeepsRegs s t [] ∧ KeepsMem s t []

/-- Only `I` may change. -/
abbrev OnlyI (s t : State) : Prop := t = { s with i := t.i } ∧ KeepsRegs s t [] ∧ KeepsMem s t []

/-- Only the bytes at the listed addresses may change. -/
abbrev OnlyMem (s t : State) (stored : List Nat) : Prop :=
  t = { s with mem := t.mem } ∧ KeepsRegs s t [] ∧ KeepsMem s t stored

/-- Only the framebuffer and VF may change. -/
abbrev OnlyDisplay (s t : State) : Prop :=
  t = { s with fb := t.fb, v := t.v } ∧ KeepsRegs s t [vF] ∧ KeepsMem s t []

/-- The addresses `I`, `I + 1`, ... `I + n - 1` (43_index_and_memory.md R156). -/
def addrsFromI (s : State) (n : Nat) : List Nat := (List.range n).map (effAddr s)

/-- What `FAULT` holds after a data access from `I` on ran out of memory: the first address above 4095. -/
def dataFault (s : State) : FaultReg := ⟨.outOfBoundsMemoryAccess, BitVec.ofNat 16 (max s.i.toNat 4096)⟩

/-! ### Who writes what (10_state.md R42) -/

/-- The registers an instruction may write. -/
def regsWritten : Instr → List Reg
  | .ldImm x _ | .addImm x _ | .ldReg x _ | .orReg x _ | .andReg x _ | .xorReg x _ | .rnd x _ | .ldVxDt x | .ldVxK x => [x]
  | .addReg x _ | .sub x _ | .shr x _ | .subn x _ | .shl x _ => [vF, x]
  | .drw _ _ _ => [vF]
  | .ldRegs x => (List.range (x.val + 1)).map regOfNat
  | .cls | .ret | .jp _ | .call _ | .seImm _ _ | .sneImm _ _ | .seReg _ _ | .sneReg _ _ | .ldI _ | .jpV0 _ | .skp _ | .sknp _
  | .ldDtVx _ | .ldStVx _ | .addI _ | .ldF _ | .ldB _ | .stRegs _ | .sys _ => []

/-- The addresses an instruction may store to, as its meaning computes them. -/
def addrsStored (s : State) : Instr → List Nat
  | .ldB _ => addrsFromI s 3
  | .stRegs x => addrsFromI s (x.val + 1)
  | _ => []

/-- The instructions that write `I`. -/
def writesI : Instr → Bool
  | .ldI _ | .addI _ | .ldF _ => true
  | _ => false

/-- The instructions that write `FB`. -/
def writesFb : Instr → Bool
  | .cls | .drw _ _ _ => true
  | _ => false

/-- The instructions that write `SP`. -/
def writesSp : Instr → Bool
  | .ret | .call _ => true
  | _ => false

/-- The stack entry an instruction may write. -/
def entryWritten (s : State) : Instr → Option Nat
  | .call _ => some s.sp.val
  | _ => none

/-- The instruction that writes `DT`. -/
def writesDt : Instr → Bool
  | .ldDtVx _ => true
  | _ => false

/-- The instruction that writes `ST`. -/
def writesSt : Instr → Bool
  | .ldStVx _ => true
  | _ => false

/-- The instruction that takes a draw. -/
def takesDraw : Instr → Bool
  | .rnd _ _ => true
  | _ => false

/-! ### Who raises what (60_exceptions.md R200, R201) -/

/-- When an instruction raises in execution, and what `FAULT` then holds. -/
def raises (s : State) (f : FaultReg) : Instr → Prop
  | .ret => s.sp.val = 0 ∧ f = ⟨.stackUnderflow, 0⟩
  | .call _ => s.sp.val = 16 ∧ f = ⟨.stackOverflow, s.pc⟩
  | .skp x | .sknp x => 15 < (s.getV x).toNat ∧ f = ⟨.keyIndexOutOfRange, BitVec.ofNat 16 (s.getV x).toNat⟩
  | .drw _ _ n => 0 < n.toNat ∧ 4096 < s.i.toNat + n.toNat ∧ f = dataFault s
  | .ldB _ => 4096 < s.i.toNat + 3 ∧ f = dataFault s
  | .stRegs x | .ldRegs x => 4096 < s.i.toNat + (x.val + 1) ∧ f = dataFault s
  | _ => False

/-! ### The state invariant -/

/-- What `FAULT` can hold (10_state.md R38, 60_exceptions.md R200). -/
def FaultInv (f : FaultReg) : Prop :=
  match f.cause with
  | .none => f.info = 0
  | .outOfBoundsMemoryAccess => 0x1000 ≤ f.info.toNat ∧ f.info.toNat ≤ 0x10FE
  | .stackOverflow => 2 ≤ f.info.toNat ∧ f.info.toNat ≤ 0x1000
  | .stackUnderflow => f.info = 0
  | .unknownOpcode => decodeWord f.info = .error (.unknownOpcode f.info)
  | .keyIndexOutOfRange => 0x10 ≤ f.info.toNat ∧ f.info.toNat ≤ 0xFF

/-- What every reachable state meets: memory is canonical, `I` needs 12 bits (10_state.md R27), `pc` is at most 0x10FE
(R26), every live stack entry lies in 0x002 to 0x1000 (R33), and `FAULT` holds what R200 allows. -/
structure Inv (s : State) : Prop where
  mem : Memory.wf s.mem = true
  i : s.i.toNat ≤ 0xFFF
  pc : s.pc.toNat ≤ 0x10FE
  stack : ∀ (k : Nat) (h : k < 16), k < s.sp.val → 2 ≤ (s.stack[k]'h).toNat ∧ (s.stack[k]'h).toNat ≤ 0x1000
  fault : FaultInv s.fault

/-- Two states that differ at most in stack entries that are not live (10_state.md R28). -/
def SameButDeadStack (s t : State) : Prop :=
  t = { s with stack := t.stack } ∧ ∀ (k : Nat) (h : k < 16), k < s.sp.val → t.stack[k]'h = s.stack[k]'h

/-! ### The sprite blit (44_display.md R167) -/

/-- The cells of an `n`-row sprite in the order they are drawn: rows top to bottom, in a row left to right. -/
def spriteCells (n : Nat) : List (Nat × Nat) := (List.range n).flatMap fun row => (List.range 8).map fun col => (row, col)

/-- One bit of the sprite at `I`: bit `7 - col` of the byte at `I + row` (R166). -/
def spriteAt (s : State) (row col : Nat) : Bool := (s.readByte (s.i.toNat + row)).getLsbD (7 - col)

/-- A picture and a flag while a sprite is drawn. -/
abbrev Picture := (Fin 32 → Fin 64 → Bool) × Byte

/-- A coordinate register while a sprite is drawn: VF is the flag so far, every other one does not change. -/
def coordinate (s : State) (flag : Byte) (x : Reg) : Nat := if x = 15 then flag.toNat else (s.getV x).toNat

/-- One sprite bit (R167): where it is set, the pixel under it flips, and the flag becomes 1 if that pixel was 1. -/
def blitCell (x y : Reg) (s : State) (p : Picture) (cell : Nat × Nat) : Picture :=
  if spriteAt s cell.1 cell.2 then
    (fun r c => if r.val = (coordinate s p.2 y + cell.1) % 32 ∧ c.val = (coordinate s p.2 x + cell.2) % 64 then !p.1 r c else p.1 r c,
     if p.1 (Fin.ofNat 32 (coordinate s p.2 y + cell.1)) (Fin.ofNat 64 (coordinate s p.2 x + cell.2)) then 1 else p.2)
  else p

/-- The picture and the flag after the first `n` rows of a sprite, the flag cleared at the start. -/
def blit (x y : Reg) (n : Nat) (s : State) : Picture :=
  (spriteCells n).foldl (blitCell x y s) (fun r c => s.pixel r c, 0)

/-- A set bit of an `n`-row sprite at (`V[x]`, `V[y]`) lies on this pixel (R168). -/
def covers (x y : Reg) (n : Nat) (s : State) (r : Fin 32) (c : Fin 64) : Prop :=
  ∃ row col, row < n ∧ col < 8 ∧ spriteAt s row col = true ∧
    r.val = ((s.getV y).toNat + row) % 32 ∧ c.val = ((s.getV x).toNat + col) % 64

end Sys2Proof.Safety
end

