-- ==== Sys2Proof/Certificates/Slice0/Obligations.lean ====
section
/-! DEFINITION. The statements about the machine, from the numbered rules of spec/. In a statement about `exec`, the
state's `pc` is the address after the instruction's word (00_scope.md R12). -/

open Sys2Proof Sys2Proof.Machine Sys2Proof.Safety

/-! ### Encoding -/

/-- A few words of the table of examples in 30_encoding.md section 6, one or two per family, decode to what they stand
for. -/
def Obligations.SampleWordsDecode : Prop :=
  decodeWord 0x00E0 = .ok .cls ∧ decodeWord 0x2ABC = .ok (.call 0xABC) ∧ decodeWord 0x5120 = .ok (.seReg 1 2) ∧
  decodeWord 0x8126 = .ok (.shr 1 2) ∧ decodeWord 0xF31E = .ok (.addI 3) ∧ decodeWord 0xD005 = .ok (.drw 0 0 5) ∧
  decodeWord 0xE3A1 = .ok (.sknp 3) ∧ decodeWord 0xE000 = .error (.unknownOpcode 0xE000)

/-- R82: the five fields of every word. -/
def Obligations.FieldsOfEveryWord : Prop :=
  ∀ w : Word, (fieldNnn w).toNat = w.toNat &&& 0xFFF ∧ (fieldN w).toNat = w.toNat &&& 0xF ∧
    (fieldX w).val = (w.toNat >>> 8) &&& 0xF ∧ (fieldY w).val = (w.toNat >>> 4) &&& 0xF ∧
    (fieldKk w).toNat = w.toNat &&& 0xFF

/-- Decoding the word of a well-formed instruction, at every value of its fields, gives the instruction back. -/
def Obligations.DecodeOfEncode : Prop :=
  ∀ i : Instr, i.wf = true → decodeWord (encode i) = .ok i ∧ decode (encodeBytes i) = .ok (i, [])

/-- A word that decodes is the word of the instruction it decodes to, which is well formed. -/
def Obligations.EncodeOfDecode : Prop :=
  ∀ (w : Word) (i : Instr), decodeWord w = .ok i → i.wf = true ∧ encode i = w

/-- The illegal words are exactly those of the table of 30_encoding.md section 5, and each is refused by its own name. -/
def Obligations.IllegalWordsAreThoseListed : Prop :=
  ∀ w : Word,
    (decodeWord w = .error (.unknownOpcode w) ↔
      (w.toNat / 4096 = 5 ∧ w.toNat % 16 ≠ 0) ∨
      (w.toNat / 4096 = 8 ∧ w.toNat % 16 ∈ [0x8, 0x9, 0xA, 0xB, 0xC, 0xD, 0xF]) ∨
      (w.toNat / 4096 = 9 ∧ w.toNat % 16 ≠ 0) ∨
      (w.toNat / 4096 = 0xE ∧ w.toNat % 256 ∉ [0x9E, 0xA1]) ∨
      (w.toNat / 4096 = 0xF ∧ w.toNat % 256 ∉ [0x07, 0x0A, 0x15, 0x18, 0x1E, 0x29, 0x33, 0x55, 0x65])) ∧
    ∀ e, decodeWord w = .error e → e = .unknownOpcode w

/-! ### The cycle and the step -/

/-- R100, the part every instruction's own statement reaches a run through: when the two bytes at `pc` hold a
well-formed instruction, a step executes it with `pc` moved past its word and the event taken off the schedule. -/
def Obligations.StepRunsDecodedInstruction : Prop :=
  ∀ (s : State) (i : Instr), Runs s → CycleNext s → s.pc.toNat ≤ 4094 → i.wf = true →
    decodeWord (wordAt s s.pc.toNat) = .ok i → step s = exec i { afterEvent s with pc := s.pc + 2 }

/-- R100: the whole of a `CYCLE`, for every state whose next event is one: halted (the spec's own decision D7), the two
fetch faults (D22), decode, execute. -/
def Obligations.CycleRunsItsFourStages : Prop :=
  ∀ s : State, CycleNext s →
    step s =
      if s.fault.cause ≠ .none then .next (afterEvent s)
      else if 4095 < s.pc.toNat then .next { afterEvent s with fault := ⟨.outOfBoundsMemoryAccess, s.pc⟩ }
      else if s.pc.toNat = 4095 then .next { afterEvent s with fault := ⟨.outOfBoundsMemoryAccess, 0x1000⟩ }
      else match decodeWord (wordAt s s.pc.toNat) with
        | .ok i => exec i { afterEvent s with pc := s.pc + 2 }
        | .error _ => .next { afterEvent s with pc := s.pc + 2, fault := ⟨.unknownOpcode, wordAt s s.pc.toNat⟩ }

/-- The self-jump that ends a program leaves the whole state as it is (40_cycle_and_flow.md section 3; the spec marks
the idiom as its own, D20). -/
def Obligations.SelfJumpIsAFixedPoint : Prop :=
  ∀ (s : State) (nnn : Addr), Runs s → s.sched = [] → s.pc.toNat ≤ 4094 → nnn.toNat = s.pc.toNat →
    wordAt s s.pc.toNat = patNnn 0x1 nnn → step s = .next s

/-- Every instruction answers a next state, and so does every step, but for one event the spec gives no meaning:
`SET_KEY` outside 0..15, refused by name (log entries 5 and 7). -/
def Obligations.EveryStepAnswers : Prop :=
  (∀ (i : Instr) (s : State), ∃ t, exec i s = .next t) ∧
  ∀ s : State, (∃ t, step s = .next t) ∨
    ∃ k pressed rest, s.sched = .setKey k pressed :: rest ∧ 15 < k ∧ step s = .refused (.setKeyOutsideDomain k)

/-- A recorded fault stays, and the core stays halted, through every event but `RESET` (60_exceptions.md section 4,
D7). -/
def Obligations.OnlyResetLeavesTheHalt : Prop :=
  ∀ s t : State, ¬ Runs s → step s = .next t → s.sched.head? ≠ some .reset →
    t.fault = s.fault ∧ t.pc = s.pc ∧ t.v = s.v ∧ t.i = s.i ∧ t.sp = s.sp ∧ t.stack = s.stack ∧ t.fb = s.fb

/-! ### Control transfer -/

/-- R104: every `0nnn` but two decodes to SYS, which does nothing. -/
def Obligations.SysDoesNothing : Prop :=
  ∀ (nnn : Addr) (s : State), (nnn ≠ 0x0E0 → nnn ≠ 0x0EE → decodeWord (patNnn 0x0 nnn) = .ok (.sys nnn)) ∧
    exec (.sys nnn) s = .next s

/-- R105: `RET` pops the newest entry into `pc`, or faults on an empty stack. -/
def Obligations.RetPopsOrFaults : Prop :=
  ∀ s : State, decodeWord 0x00EE = .ok .ret ∧
    (∀ h : 0 < s.sp.val, ∃ t, exec .ret s = .next t ∧ t.pc = s.stack[s.sp.val - 1]'(by omega) ∧
      t.sp.val = s.sp.val - 1 ∧ t = { s with pc := t.pc, sp := t.sp } ∧ KeepsRegs s t [] ∧ KeepsMem s t []) ∧
    (s.sp.val = 0 → exec .ret s = .next { s with fault := ⟨.stackUnderflow, 0⟩ })

/-- R106, R108: where the two jumps go; the sum of `Bnnn` is plain, not reduced to 12 bits. A jump past 4094 succeeds, and
the next cycle's fetch faults with `pc` kept and only `FAULT` changed, which is R101 with the spec's own decision D22 (log
entry 10). -/
def Obligations.JumpsSetPc : Prop :=
  ∀ (nnn : Addr) (s : State), decodeWord (patNnn 0x1 nnn) = .ok (.jp nnn) ∧ decodeWord (patNnn 0xB nnn) = .ok (.jpV0 nnn) ∧
    (∃ t, exec (.jp nnn) s = .next t ∧ t.pc.toNat = nnn.toNat ∧ OnlyPc s t) ∧
    (∃ t, exec (.jpV0 nnn) s = .next t ∧ t.pc.toNat = nnn.toNat + (s.getV 0).toNat ∧ OnlyPc s t) ∧
    ∀ t, exec (.jp nnn) s = .next t ∨ exec (.jpV0 nnn) s = .next t → Runs t → CycleNext t → 4094 < t.pc.toNat →
      step t = .next { afterEvent t with fault := ⟨.outOfBoundsMemoryAccess, BitVec.ofNat 16 (max t.pc.toNat 4096)⟩ }

/-- R107: `CALL` pushes the address after it and jumps, or faults on a full stack with the jump not taken. -/
def Obligations.CallPushesOrFaults : Prop :=
  ∀ (nnn : Addr) (s : State), decodeWord (patNnn 0x2 nnn) = .ok (.call nnn) ∧
    (∀ h : s.sp.val < 16, ∃ t, exec (.call nnn) s = .next t ∧ t.pc.toNat = nnn.toNat ∧ t.sp.val = s.sp.val + 1 ∧
      t.stack[s.sp.val]'h = s.pc ∧ (∀ (k : Nat) (hk : k < 16), k ≠ s.sp.val → t.stack[k]'hk = s.stack[k]'hk) ∧
      t = { s with pc := t.pc, sp := t.sp, stack := t.stack } ∧ KeepsRegs s t [] ∧ KeepsMem s t []) ∧
    (s.sp.val = 16 → exec (.call nnn) s = .next { s with fault := ⟨.stackOverflow, s.pc⟩ })

/-- A `RET` at the depth a `CALL` left, with the entries of that depth as the `CALL` left them, returns to the
instruction after the `CALL` (40_cycle_and_flow.md section 3). -/
def Obligations.RetReturnsAfterItsCall : Prop :=
  ∀ (nnn : Addr) (s t u : State), s.sp.val < 16 → exec (.call nnn) s = .next t → u.sp = t.sp →
    (∀ (k : Nat) (h : k < 16), k < t.sp.val → u.stack[k]'h = t.stack[k]'h) →
    ∃ w, exec .ret u = .next w ∧ w.pc = s.pc ∧ w.sp = s.sp ∧ w.fault = u.fault

/-- R120, R121: the skips that compare with an immediate. -/
def Obligations.SkipsOnImmediate : Prop :=
  ∀ (x : Reg) (kk : Byte) (s : State),
    decodeWord (patXkk 0x3 x kk) = .ok (.seImm x kk) ∧ decodeWord (patXkk 0x4 x kk) = .ok (.sneImm x kk) ∧
    (∃ t, exec (.seImm x kk) s = .next t ∧ t.pc = (if s.getV x = kk then s.pc + 2 else s.pc) ∧ OnlyPc s t) ∧
    (∃ t, exec (.sneImm x kk) s = .next t ∧ t.pc = (if s.getV x = kk then s.pc else s.pc + 2) ∧ OnlyPc s t)

/-- R122, R123: the skips that compare two registers; with another low nibble the word is no instruction. -/
def Obligations.SkipsOnRegister : Prop :=
  ∀ (x y : Reg) (s : State),
    decodeWord (patXyn 0x5 x y 0) = .ok (.seReg x y) ∧ decodeWord (patXyn 0x9 x y 0) = .ok (.sneReg x y) ∧
    (∀ n : Nibble, n ≠ 0 →
      decodeWord (patXyn 0x5 x y n.toNat) = .error (.unknownOpcode (patXyn 0x5 x y n.toNat)) ∧
      decodeWord (patXyn 0x9 x y n.toNat) = .error (.unknownOpcode (patXyn 0x9 x y n.toNat))) ∧
    (∃ t, exec (.seReg x y) s = .next t ∧ t.pc = (if s.getV x = s.getV y then s.pc + 2 else s.pc) ∧ OnlyPc s t) ∧
    (∃ t, exec (.sneReg x y) s = .next t ∧ t.pc = (if s.getV x = s.getV y then s.pc else s.pc + 2) ∧ OnlyPc s t)

/-! ### Loads and arithmetic -/

/-- R131, R132: load and add immediate; no flag. -/
def Obligations.LoadAndAddImmediate : Prop :=
  ∀ (x : Reg) (kk : Byte) (s : State),
    decodeWord (patXkk 0x6 x kk) = .ok (.ldImm x kk) ∧ decodeWord (patXkk 0x7 x kk) = .ok (.addImm x kk) ∧
    (∃ t, exec (.ldImm x kk) s = .next t ∧ t.getV x = kk ∧ OnlyRegs s t [x]) ∧
    (∃ t, exec (.addImm x kk) s = .next t ∧ (t.getV x).toNat = ((s.getV x).toNat + kk.toNat) % 256 ∧ OnlyRegs s t [x])

/-- R133 to R136: copy and the bitwise operations, bit by bit; no flag. -/
def Obligations.CopyAndBitwise : Prop :=
  ∀ (x y : Reg) (s : State),
    decodeWord (patXyn 0x8 x y 0) = .ok (.ldReg x y) ∧ decodeWord (patXyn 0x8 x y 1) = .ok (.orReg x y) ∧
    decodeWord (patXyn 0x8 x y 2) = .ok (.andReg x y) ∧ decodeWord (patXyn 0x8 x y 3) = .ok (.xorReg x y) ∧
    (∃ t, exec (.ldReg x y) s = .next t ∧ t.getV x = s.getV y ∧ OnlyRegs s t [x]) ∧
    (∃ t, exec (.orReg x y) s = .next t ∧ OnlyRegs s t [x] ∧
      ∀ b, (t.getV x).getLsbD b = ((s.getV x).getLsbD b || (s.getV y).getLsbD b)) ∧
    (∃ t, exec (.andReg x y) s = .next t ∧ OnlyRegs s t [x] ∧
      ∀ b, (t.getV x).getLsbD b = ((s.getV x).getLsbD b && (s.getV y).getLsbD b)) ∧
    (∃ t, exec (.xorReg x y) s = .next t ∧ OnlyRegs s t [x] ∧
      ∀ b, (t.getV x).getLsbD b = ((s.getV x).getLsbD b != (s.getV y).getLsbD b))

/-- R137: the sum, and the carry in VF unless the result itself goes there (that order for `x` = 15 is the spec's own
decision D9). -/
def Obligations.AddWithCarry : Prop :=
  ∀ (x y : Reg) (s : State), decodeWord (patXyn 0x8 x y 4) = .ok (.addReg x y) ∧
    ∃ t, exec (.addReg x y) s = .next t ∧ (t.getV x).toNat = ((s.getV x).toNat + (s.getV y).toNat) % 256 ∧
      (x ≠ 15 → t.getV 15 = if (s.getV x).toNat + (s.getV y).toNat > 255 then 1 else 0) ∧ OnlyRegs s t [15, x]

/-- R138: the flag is strictly greater, and is written before the operands are read again: an operand that is VF is then
the flag (that order, seen for register 15 only, is the spec's own decision D9). -/
def Obligations.SubtractWithFlag : Prop :=
  ∀ (x y : Reg) (s : State), decodeWord (patXyn 0x8 x y 5) = .ok (.sub x y) ∧
    ∀ f : Byte, f = (if (s.getV x).toNat > (s.getV y).toNat then 1 else 0) →
      ∃ t, exec (.sub x y) s = .next t ∧
        t.getV x = (if x = 15 then f else s.getV x) - (if y = 15 then f else s.getV y) ∧
        (x ≠ 15 → t.getV 15 = f) ∧ OnlyRegs s t [15, x]

/-- R140: as R138 with the operands exchanged (register 15: D9). -/
def Obligations.SubtractReversedWithFlag : Prop :=
  ∀ (x y : Reg) (s : State), decodeWord (patXyn 0x8 x y 7) = .ok (.subn x y) ∧
    ∀ f : Byte, f = (if (s.getV y).toNat > (s.getV x).toNat then 1 else 0) →
      ∃ t, exec (.subn x y) s = .next t ∧
        t.getV x = (if y = 15 then f else s.getV y) - (if x = 15 then f else s.getV x) ∧
        (x ≠ 15 → t.getV 15 = f) ∧ OnlyRegs s t [15, x]

/-- R139, R141: the shifts of `V[x]`, for every `y`, which is ignored; with `x` = 15 the result is of the flag (D9). -/
def Obligations.ShiftsWithFlag : Prop :=
  ∀ (x y : Reg) (s : State),
    decodeWord (patXyn 0x8 x y 6) = .ok (.shr x y) ∧ decodeWord (patXyn 0x8 x y 0xE) = .ok (.shl x y) ∧
    (∃ t, exec (.shr x y) s = .next t ∧ OnlyRegs s t [15, x] ∧
      (x ≠ 15 → (t.getV x).toNat = (s.getV x).toNat / 2 ∧ (t.getV 15).toNat = (s.getV x).toNat % 2) ∧
      (x = 15 → t.getV 15 = 0)) ∧
    (∃ t, exec (.shl x y) s = .next t ∧ OnlyRegs s t [15, x] ∧
      (x ≠ 15 → (t.getV x).toNat = (s.getV x).toNat * 2 % 256 ∧ (t.getV 15).toNat = (s.getV x).toNat / 128) ∧
      (x = 15 → (t.getV 15).toNat = 2 * ((s.getV 15).toNat / 128)))

/-- The table of 42_load_and_alu.md section 1 for the register-15 forms of `8xy4`, `8xy5` and `8xy7` (the spec's own
decision D9): what VF and `V[x]` end as. -/
def Obligations.RegisterFifteenForms : Prop :=
  ∀ (x y : Reg) (s : State) (vx vy vf : Nat), vx = (s.getV x).toNat → vy = (s.getV y).toNat → vf = (s.getV 15).toNat →
    (∃ t, exec (.addReg 15 y) s = .next t ∧ (t.getV 15).toNat = (vf + vy) % 256) ∧
    (x ≠ 15 → ∃ t, exec (.addReg x 15) s = .next t ∧ (t.getV x).toNat = (vx + vf) % 256 ∧
      (t.getV 15).toNat = (vx + vf) / 256) ∧
    (y ≠ 15 → ∃ t, exec (.sub 15 y) s = .next t ∧ (t.getV 15).toNat = ((if vf > vy then 1 else 0) + 256 - vy) % 256) ∧
    (x ≠ 15 → ∃ t, exec (.sub x 15) s = .next t ∧ (t.getV x).toNat = vx - (if vx > vf then 1 else 0) ∧
      (t.getV 15).toNat = if vx > vf then 1 else 0) ∧
    (y ≠ 15 → ∃ t, exec (.subn 15 y) s = .next t ∧ (t.getV 15).toNat = vy - (if vy > vf then 1 else 0)) ∧
    (x ≠ 15 → ∃ t, exec (.subn x 15) s = .next t ∧ (t.getV x).toNat = ((if vf > vx then 1 else 0) + 256 - vx) % 256 ∧
      (t.getV 15).toNat = if vf > vx then 1 else 0) ∧
    (∃ t, exec (.sub 15 15) s = .next t ∧ t.getV 15 = 0) ∧ (∃ t, exec (.subn 15 15) s = .next t ∧ t.getV 15 = 0)

/-- The random byte (42_load_and_alu.md section 5, D6; log entry 1): the result is the free byte of this draw and-ed with
`kk`, so it is at most `kk` and has no bit that `kk` lacks, and the next draw is another one. It holds whatever the free
byte is. -/
def Obligations.RandomIsMasked : Prop :=
  ∀ (x : Reg) (kk : Byte) (s : State), decodeWord (patXkk 0xC x kk) = .ok (.rnd x kk) ∧
    ∃ t, exec (.rnd x kk) s = .next t ∧ t.getV x = Config.draw8 s.draws &&& kk ∧ (t.getV x).toNat ≤ kk.toNat ∧
      (∀ b, kk.getLsbD b = false → (t.getV x).getLsbD b = false) ∧
      t = { s with v := t.v, draws := s.draws + 1 } ∧ KeepsRegs s t [x] ∧ KeepsMem s t []

/-! ### Index register and memory -/

/-- R150 to R152: the three writes of `I`; only `Fx1E` reduces, modulo 4096, and none writes a flag. -/
def Obligations.IndexRegisterWrites : Prop :=
  ∀ (nnn : Addr) (x : Reg) (s : State),
    decodeWord (patNnn 0xA nnn) = .ok (.ldI nnn) ∧ decodeWord (patXkk 0xF x 0x1E) = .ok (.addI x) ∧
    decodeWord (patXkk 0xF x 0x29) = .ok (.ldF x) ∧
    (∃ t, exec (.ldI nnn) s = .next t ∧ t.i.toNat = nnn.toNat ∧ OnlyI s t) ∧
    (∃ t, exec (.addI x) s = .next t ∧ t.i.toNat = (s.i.toNat + (s.getV x).toNat) % 4096 ∧ OnlyI s t) ∧
    (∃ t, exec (.ldF x) s = .next t ∧ t.i.toNat = (s.getV x).toNat * 5 ∧ OnlyI s t)

/-- R54, R55: a read or write above 4095 faults with that address; a read changes nothing, a write changes its one cell
and is what a read gives afterwards. -/
def Obligations.MemoryPrimitives : Prop :=
  ∀ (a : Nat) (b : Byte) (s : State), Memory.wf s.mem = true →
    (4095 < a → memRead a s = .error { s with fault := ⟨.outOfBoundsMemoryAccess, BitVec.ofNat 16 a⟩ } ∧
      memWrite a b s = .error { s with fault := ⟨.outOfBoundsMemoryAccess, BitVec.ofNat 16 a⟩ }) ∧
    (a ≤ 4095 → memRead a s = .ok (s.readByte a) ∧
      ∃ t, memWrite a b s = .ok t ∧ memRead a t = .ok b ∧ OnlyMem s t [a] ∧ Memory.wf t.mem = true)

/-- R153: the three digits, or the fault at the first address above 4095 with the digits below it written (that earlier
effects stay is the spec's own decision D8). -/
def Obligations.BcdStoresDigitsOrFaults : Prop :=
  ∀ (x : Reg) (s : State), Memory.wf s.mem = true → decodeWord (patXkk 0xF x 0x33) = .ok (.ldB x) ∧
    ∀ digit : Nat → Nat, digit 0 = (s.getV x).toNat / 100 → digit 1 = (s.getV x).toNat / 10 % 10 →
      digit 2 = (s.getV x).toNat % 10 →
      (s.i.toNat + 2 ≤ 4095 → ∃ t, exec (.ldB x) s = .next t ∧ OnlyMem s t (addrsFromI s 3) ∧
        ∀ k, k < 3 → (t.readByte (effAddr s k)).toNat = digit k) ∧
      (4095 < s.i.toNat + 2 → ∃ t, exec (.ldB x) s = .next t ∧ t = { s with mem := t.mem, fault := dataFault s } ∧
        KeepsRegs s t [] ∧ KeepsMem s t (addrsFromI s (4096 - s.i.toNat)) ∧
        ∀ k, k < 3 → effAddr s k ≤ 4095 → (t.readByte (effAddr s k)).toNat = digit k)

/-- R154: `V[0]` to `V[x]` stored from `I` on, or the fault at the first address above 4095 with the bytes below it
written (D8); `I` unchanged. -/
def Obligations.StoreRegistersOrFault : Prop :=
  ∀ (x : Reg) (s : State), Memory.wf s.mem = true → decodeWord (patXkk 0xF x 0x55) = .ok (.stRegs x) ∧
    (s.i.toNat + x.val ≤ 4095 → ∃ t, exec (.stRegs x) s = .next t ∧ OnlyMem s t (addrsFromI s (x.val + 1)) ∧
      ∀ r : Reg, r ≤ x → t.readByte (effAddr s r.val) = s.getV r) ∧
    (4095 < s.i.toNat + x.val → ∃ t, exec (.stRegs x) s = .next t ∧ t = { s with mem := t.mem, fault := dataFault s } ∧
      KeepsRegs s t [] ∧ KeepsMem s t (addrsFromI s (4096 - s.i.toNat)) ∧
      ∀ r : Reg, r ≤ x → effAddr s r.val ≤ 4095 → t.readByte (effAddr s r.val) = s.getV r)

/-- R155: `V[0]` to `V[x]` loaded from `I` on, or the fault at the first address above 4095 with the registers below it
loaded (D8); `I` and memory unchanged. -/
def Obligations.LoadRegistersOrFault : Prop :=
  ∀ (x : Reg) (s : State), decodeWord (patXkk 0xF x 0x65) = .ok (.ldRegs x) ∧
    (s.i.toNat + x.val ≤ 4095 → ∃ t, exec (.ldRegs x) s = .next t ∧ t = { s with v := t.v } ∧ KeepsMem s t [] ∧
      ∀ r : Reg, t.getV r = if r ≤ x then s.readByte (effAddr s r.val) else s.getV r) ∧
    (4095 < s.i.toNat + x.val → ∃ t, exec (.ldRegs x) s = .next t ∧ t = { s with v := t.v, fault := dataFault s } ∧
      KeepsMem s t [] ∧
      ∀ r : Reg, t.getV r = if r ≤ x ∧ effAddr s r.val ≤ 4095 then s.readByte (effAddr s r.val) else s.getV r)

/-- A store into the next instruction is what the next cycle decodes (20_memory.md section 8): `Fx55` with `I` at the
address after it. -/
def Obligations.StoreIsSeenByTheNextFetch : Prop :=
  ∀ (x : Reg) (s t : State) (j : Instr), Memory.wf s.mem = true → Runs s → CycleNext s → 1 ≤ x.val → s.i = s.pc →
    s.i.toNat + x.val ≤ 4095 → exec (.stRegs x) s = .next t →
    decodeWord (BitVec.ofNat 16 ((s.getV 0).toNat * 256 + (s.getV 1).toNat)) = .ok j →
    step t = exec j { afterEvent t with pc := t.pc + 2 }

/-! ### Display -/

/-- R165: every pixel becomes 0 and nothing else changes. -/
def Obligations.ClsClearsEveryPixel : Prop :=
  ∀ s : State, decodeWord 0x00E0 = .ok .cls ∧
    ∃ t, exec .cls s = .next t ∧ (∀ r c, t.pixel r c = false) ∧ t = { s with fb := t.fb } ∧ KeepsRegs s t [] ∧ KeepsMem s t []

/-- `Dxyn` for every `x` and `y`, register 15 too (44_display.md, R167 with the spec's own decision D10 for register 15):
the picture and VF are those of the sprite's set bits taken one by one in order; where the sprite runs past 4095, those
of the rows before, and the fault. -/
def Obligations.DrawIsTheBlitOfItsRows : Prop :=
  ∀ (x y : Reg) (n : Nibble) (s : State), decodeWord (patXyn 0xD x y n.toNat) = .ok (.drw x y n) ∧
    ((n = 0 ∨ s.i.toNat + n.toNat ≤ 4096) → ∃ t, exec (.drw x y n) s = .next t ∧ OnlyDisplay s t ∧
      (∀ r c, t.pixel r c = (blit x y n.toNat s).1 r c) ∧ t.getV 15 = (blit x y n.toNat s).2) ∧
    ((n ≠ 0 ∧ 4096 < s.i.toNat + n.toNat) → ∃ t, exec (.drw x y n) s = .next t ∧
      t = { s with fb := t.fb, v := t.v, fault := dataFault s } ∧ KeepsRegs s t [15] ∧ KeepsMem s t [] ∧
      (∀ r c, t.pixel r c = (blit x y (4096 - s.i.toNat) s).1 r c) ∧ t.getV 15 = (blit x y (4096 - s.i.toNat) s).2)

/-- R168: what a program can rely on from `Dxyn` for `x`, `y` other than 15 and no fault (44_display.md): exactly the
pixels under a set bit flip, and VF is 1 exactly when one of them was 1, else 0. -/
def Obligations.DrawFlipsExactlyTheCoveredPixels : Prop :=
  ∀ (x y : Reg) (n : Nibble) (s : State), x ≠ 15 → y ≠ 15 → (n = 0 ∨ s.i.toNat + n.toNat ≤ 4096) →
    ∃ t, exec (.drw x y n) s = .next t ∧ OnlyDisplay s t ∧
      (∀ r c, (covers x y n.toNat s r c → t.pixel r c = !s.pixel r c) ∧
        (¬ covers x y n.toNat s r c → t.pixel r c = s.pixel r c)) ∧
      (t.getV 15 = 1 ↔ ∃ r c, covers x y n.toNat s r c ∧ s.pixel r c = true) ∧
      (t.getV 15 = 0 ↔ ¬ ∃ r c, covers x y n.toNat s r c ∧ s.pixel r c = true)

/-- Drawing the same sprite twice at the same place restores the framebuffer (44_display.md, corner cases of `Dxyn`).
The spec goes on that VF is then 1 if the sprite has any 1 bit; by its own pseudocode (R167), which the model follows,
that is so where a pixel under the sprite was 0 before the first draw, and VF is 0 where all of them were 1 (log
entry 13). -/
def Obligations.DrawTwiceRestores : Prop :=
  ∀ (x y : Reg) (n : Nibble) (s t : State), x ≠ 15 → y ≠ 15 → (n = 0 ∨ s.i.toNat + n.toNat ≤ 4096) →
    exec (.drw x y n) s = .next t →
    ∃ u, exec (.drw x y n) t = .next u ∧ u.fb = s.fb ∧
      (u.getV 15 = 1 ↔ ∃ r c, covers x y n.toNat s r c ∧ s.pixel r c = false)

/-! ### Keys and timers -/

/-- R180, R181: the key skips, for an index in 0..15; above it the fault with the whole of `V[x]`, which is the spec's
own decision D5 (45_input_and_timers.md section 1). -/
def Obligations.KeySkipsOrFault : Prop :=
  ∀ (x : Reg) (s : State),
    decodeWord (patXkk 0xE x 0x9E) = .ok (.skp x) ∧ decodeWord (patXkk 0xE x 0xA1) = .ok (.sknp x) ∧
    ((s.getV x).toNat ≤ 15 →
      (∃ t, exec (.skp x) s = .next t ∧ OnlyPc s t ∧
        t.pc = if s.keyDown (s.getV x).toNat = true then s.pc + 2 else s.pc) ∧
      (∃ t, exec (.sknp x) s = .next t ∧ OnlyPc s t ∧
        t.pc = if s.keyDown (s.getV x).toNat = true then s.pc else s.pc + 2)) ∧
    (15 < (s.getV x).toNat →
      exec (.skp x) s = .next { s with fault := ⟨.keyIndexOutOfRange, BitVec.ofNat 16 (s.getV x).toNat⟩ } ∧
      exec (.sknp x) s = .next { s with fault := ⟨.keyIndexOutOfRange, BitVec.ofNat 16 (s.getV x).toNat⟩ })

/-- R182: with a key down, `Fx0A` loads the least one's index and goes on; with none, `pc` goes back to the
instruction. -/
def Obligations.KeyWaitLoadsTheLeastKey : Prop :=
  ∀ (x : Reg) (s : State), decodeWord (patXkk 0xF x 0x0A) = .ok (.ldVxK x) ∧
    (∀ k : Nat, k < 16 → s.keyDown k = true → (∀ j, j < k → s.keyDown j = false) →
      ∃ t, exec (.ldVxK x) s = .next t ∧ (t.getV x).toNat = k ∧ OnlyRegs s t [x]) ∧
    ((∀ k, k < 16 → s.keyDown k = false) → exec (.ldVxK x) s = .next { s with pc := s.pc - 2 })

/-- R182: with no key pressed, the cycle of an `Fx0A` leaves the whole state as it was. -/
def Obligations.KeyWaitCycleIsIdle : Prop :=
  ∀ (x : Reg) (s : State), Runs s → s.sched = [] → s.pc.toNat ≤ 4094 → wordAt s s.pc.toNat = patXkk 0xF x 0x0A →
    s.keys = 0 → step s = .next s

/-- R183 to R185: the three copies between a register and a timer. -/
def Obligations.TimerCopies : Prop :=
  ∀ (x : Reg) (s : State),
    decodeWord (patXkk 0xF x 0x07) = .ok (.ldVxDt x) ∧ decodeWord (patXkk 0xF x 0x15) = .ok (.ldDtVx x) ∧
    decodeWord (patXkk 0xF x 0x18) = .ok (.ldStVx x) ∧
    (∃ t, exec (.ldVxDt x) s = .next t ∧ t.getV x = s.dt ∧ OnlyRegs s t [x]) ∧
    (∃ t, exec (.ldDtVx x) s = .next t ∧ t = { s with dt := s.getV x } ∧ KeepsRegs s t [] ∧ KeepsMem s t []) ∧
    (∃ t, exec (.ldStVx x) s = .next t ∧ t = { s with st := s.getV x } ∧ t.sound = decide (s.getV x ≠ 0) ∧
      KeepsRegs s t [] ∧ KeepsMem s t [])

/-! ### The call stack and the fault register -/

/-- R31, R32: push and pop, and that the check comes first. -/
def Obligations.PushAndPop : Prop :=
  ∀ (w : Word) (s : State),
    (s.sp.val = 16 → push w s = .error { s with fault := ⟨.stackOverflow, w⟩ }) ∧
    (∀ h : s.sp.val < 16, ∃ t, push w s = .ok t ∧ t.sp.val = s.sp.val + 1 ∧ t.stack = s.stack.set s.sp.val w ∧
      t = { s with sp := t.sp, stack := t.stack } ∧ pop t = .ok (w, { s with stack := t.stack })) ∧
    (s.sp.val = 0 → pop s = .error { s with fault := ⟨.stackUnderflow, 0⟩ }) ∧
    (∀ h : 0 < s.sp.val, ∃ t, pop s = .ok (s.stack[s.sp.val - 1]'(by omega), t) ∧ t.sp.val + 1 = s.sp.val ∧
      t = { s with sp := t.sp })

/-- The codes and the layout of `FAULT` as the host reads it (10_state.md section 10, the spec's own decision D7). -/
def Obligations.FaultRegisterLayout : Prop :=
  (FaultCause.none.code = 0 ∧ FaultCause.outOfBoundsMemoryAccess.code = 1 ∧ FaultCause.stackOverflow.code = 2 ∧
    FaultCause.stackUnderflow.code = 3 ∧ FaultCause.unknownOpcode.code = 4 ∧ FaultCause.keyIndexOutOfRange.code = 5) ∧
  ∀ s : State, s.faultWord.toNat = s.fault.info.toNat * 8 + s.fault.cause.code.toNat ∧
    (s.faultWord.toNat % 8 = 0 ↔ Runs s)

/-- Which instruction raises what in execution, exactly (60_exceptions.md sections 1 and 2): `FAULT` changes only where
the table says, to the value it says, and there it does. -/
def Obligations.WhoRaisesWhat : Prop :=
  ∀ (i : Instr) (s t : State), exec i s = .next t →
    (∀ f, raises s f i → t.fault = f) ∧ ((¬ ∃ f, raises s f i) → t.fault = s.fault)

/-! ### The host's events -/

/-- R230: the values `RESET` leaves, which the machine also first exists with; the unlisted addresses of memory hold the
font table (its bytes are the default of a parameter, log entry 2) and zeros; that the timers start at 0 is the spec's
own decision D3. The host's later events stay to come (log entry 4). -/
def Obligations.ResetLeavesTheResetValues : Prop :=
  ∀ (s : State) (rest : List Event), s.sched = .reset :: rest →
    ∃ t, step s = .next t ∧ t.sched = rest ∧ ∀ u : State, u = t ∨ u = State.reset →
      (∀ x, u.getV x = 0) ∧ u.i = 0 ∧ u.pc = 0x200 ∧ u.sp.val = 0 ∧ (∀ a, u.readByte a = if a < 0x50 then Config.fontset.getD a 0 else 0) ∧
      (∀ r c, u.pixel r c = false) ∧ (∀ k, u.keyDown k = false) ∧ u.dt = 0 ∧ u.st = 0 ∧ u.fault = ⟨.none, 0⟩

/-- R60: `LOAD` writes a ROM of at most 3584 bytes from 0x200 and nothing else; a longer one is refused to the host
before anything is written. -/
def Obligations.LoadWritesTheRomOrRefuses : Prop :=
  ∀ (rom : List Byte) (s : State) (rest : List Event), Memory.wf s.mem = true → s.sched = .load rom :: rest →
    (rom.length ≤ 3584 → ∃ t, step s = .next t ∧ t = { s with mem := t.mem, sched := rest } ∧ reply (.load rom) s = .none ∧
      (∀ (j : Nat) (h : j < rom.length), t.readByte (0x200 + j) = rom[j]'h) ∧
      (∀ a, (a < 0x200 ∨ 0x200 + rom.length ≤ a) → t.readByte a = s.readByte a)) ∧
    (3584 < rom.length → step s = .next { s with sched := rest } ∧ reply (.load rom) s = .oversizeRom)

/-- `TICK` (60_exceptions.md section 7; that a timer stops at zero is the spec's own decision D4). -/
def Obligations.TickCountsBothTimersDown : Prop :=
  ∀ (s : State) (rest : List Event), s.sched = .tick :: rest →
    ∃ t, step s = .next t ∧ t.dt.toNat = s.dt.toNat - 1 ∧ t.st.toNat = s.st.toNat - 1 ∧
      t = { s with dt := t.dt, st := t.st, sched := rest }

/-- R216: `SET_KEY` writes its one key bit and nothing else. -/
def Obligations.SetKeyWritesOneBit : Prop :=
  ∀ (k : Nat) (pressed : Bool) (s : State) (rest : List Event), k < 16 → s.sched = .setKey k pressed :: rest →
    ∃ t, step s = .next t ∧ (∀ j, j < 16 → t.keyDown j = if j = k then pressed else s.keyDown j) ∧
      t = { s with keys := t.keys, sched := rest }

/-- R218: reading the framebuffer answers its pixels and changes nothing. `SOUND` is 1 exactly while `ST` is not zero
(60_exceptions.md section 7, the spec's own decision D25). -/
def Obligations.HostReads : Prop :=
  ∀ (s : State) (rest : List Event),
    (s.sched = .readFb :: rest → step s = .next { s with sched := rest } ∧ reply .readFb s = .frame s.fb) ∧
    (s.sound = true ↔ 0 < s.st.toNat)

/-! ### The whole machine -/

/-- The frame of every instruction: the complement of the write column of 10_state.md section 13. `pc` may change; what
a form that faults writes besides is `FAULT` alone. -/
def Obligations.FrameOfEveryInstruction : Prop :=
  ∀ (i : Instr) (s t : State), Memory.wf s.mem = true → exec i s = .next t →
    KeepsRegs s t (regsWritten i) ∧ KeepsMem s t (addrsStored s i) ∧
    (writesI i = false → t.i = s.i) ∧ (writesFb i = false → t.fb = s.fb) ∧ (writesSp i = false → t.sp = s.sp) ∧
    (∀ (k : Nat) (h : k < 16), entryWritten s i ≠ some k → t.stack[k]'h = s.stack[k]'h) ∧
    (writesDt i = false → t.dt = s.dt) ∧ (writesSt i = false → t.st = s.st) ∧
    (takesDraw i = false → t.draws = s.draws) ∧ t.keys = s.keys ∧ t.sched = s.sched

/-- Every step, whatever event it is, keeps the state invariant. -/
def Obligations.EveryStepKeepsInv : Prop := ∀ s t : State, Inv s → step s = .next t → Inv t

/-- The machine after reset meets the state invariant. -/
def Obligations.ResetMeetsInv : Prop := Inv State.reset

/-- Stack entries that are not live are unobservable (10_state.md section 5): two states that differ in them alone step
alike, to states that again differ in them alone. -/
def Obligations.DeadStackEntriesAreUnobservable : Prop :=
  ∀ s s' t : State, SameButDeadStack s s' → step s = .next t → ∃ t', step s' = .next t' ∧ SameButDeadStack t t'

/-- No instruction reads `ST` (10_state.md section 9): with another value in it, every instruction does the same, and
leaves it there unless it writes it. -/
def Obligations.NoInstructionReadsST : Prop :=
  ∀ (i : Instr) (s t : State) (b : Byte), exec i s = .next t →
    exec i { s with st := b } = .next { t with st := if writesSt i then t.st else b }

/-- Only the collision flag lets the framebuffer into a program (10_state.md section 7): with another picture, every
instruction but the two of the display does the same and leaves the picture as it was. -/
def Obligations.OnlyDrawReadsTheFramebuffer : Prop :=
  ∀ (i : Instr) (s t : State) (picture : Vector (BitVec 64) 32), writesFb i = false → exec i s = .next t →
    exec i { s with fb := picture } = .next { t with fb := picture }
end

