-- ==== Sys2Proof/Laws/Encoding.lean ====
section
/-! SUPPORT. The words the encoder builds, as numbers, and that each field of such a word is the field it was built from. -/

namespace Sys2Proof

/-- A bitwise or of disjoint parts is their sum. -/
theorem toNat_append_add {v w : Nat} (a : BitVec v) (b : BitVec w) : (a ++ b).toNat = a.toNat * 2 ^ w + b.toNat := by
  rw [BitVec.toNat_append, ← Nat.shiftLeft_add_eq_or_of_lt b.isLt, Nat.shiftLeft_eq]

theorem wordOfBytes_toNat (hi lo : Byte) : (wordOfBytes hi lo).toNat = hi.toNat * 256 + lo.toNat :=
  toNat_append_add hi lo

theorem wordNnn_toNat (g : Nibble) (nnn : Addr) : (wordNnn g nnn).toNat = g.toNat * 4096 + nnn.toNat :=
  toNat_append_add g nnn

theorem wordXkk_toNat (g : Nibble) (x : Reg) (kk : Byte) :
    (wordXkk g x kk).toNat = g.toNat * 4096 + x.val * 256 + kk.toNat := by
  have h1 := toNat_append_add (g ++ (BitVec.ofFin x : Nibble)) kk
  have h2 := toNat_append_add g (BitVec.ofFin x : Nibble)
  simp only [BitVec.toNat_ofFin] at h2
  refine Eq.trans h1 ?_
  rw [h2]
  omega

theorem wordXyn_toNat (g : Nibble) (x y : Reg) (n : Nibble) :
    (wordXyn g x y n).toNat = g.toNat * 4096 + x.val * 256 + y.val * 16 + n.toNat := by
  have h1 := toNat_append_add (g ++ (BitVec.ofFin x : Nibble) ++ (BitVec.ofFin y : Nibble)) n
  have h2 := toNat_append_add (g ++ (BitVec.ofFin x : Nibble)) (BitVec.ofFin y : Nibble)
  have h3 := toNat_append_add g (BitVec.ofFin x : Nibble)
  simp only [BitVec.toNat_ofFin] at h2 h3
  refine Eq.trans h1 ?_
  rw [h2, h3]
  omega

/-! ### The fields of a word, as numbers (R82) -/

theorem fieldGroup_toNat (w : Word) : (fieldGroup w).toNat = w.toNat / 4096 := by
  have := w.isLt
  simp [fieldGroup, BitVec.extractLsb'_toNat, Nat.shiftRight_eq_div_pow]
  omega

theorem fieldNnn_toNat (w : Word) : (fieldNnn w).toNat = w.toNat % 4096 := by
  simp [fieldNnn, BitVec.extractLsb'_toNat]

theorem fieldX_val (w : Word) : (fieldX w).val = w.toNat / 256 % 16 := by
  simp [fieldX, Nat.shiftRight_eq_div_pow]

theorem fieldY_val (w : Word) : (fieldY w).val = w.toNat / 16 % 16 := by
  simp [fieldY, Nat.shiftRight_eq_div_pow]

theorem fieldKk_toNat (w : Word) : (fieldKk w).toNat = w.toNat % 256 := by
  simp [fieldKk, BitVec.extractLsb'_toNat]

theorem fieldN_toNat (w : Word) : (fieldN w).toNat = w.toNat % 16 := by
  simp [fieldN, BitVec.extractLsb'_toNat]

/-! ### The fields of the words the encoder builds -/

section
variable (g : Nibble) (nnn : Addr) (x y : Reg) (kk : Byte) (n : Nibble)

@[simp] theorem fieldGroup_wordNnn : fieldGroup (wordNnn g nnn) = g := by
  have := nnn.isLt
  apply BitVec.eq_of_toNat_eq
  rw [fieldGroup_toNat, wordNnn_toNat]
  omega

@[simp] theorem fieldNnn_wordNnn : fieldNnn (wordNnn g nnn) = nnn := by
  have := nnn.isLt
  apply BitVec.eq_of_toNat_eq
  rw [fieldNnn_toNat, wordNnn_toNat]
  omega

@[simp] theorem fieldGroup_wordXkk : fieldGroup (wordXkk g x kk) = g := by
  have := kk.isLt
  have := x.isLt
  apply BitVec.eq_of_toNat_eq
  rw [fieldGroup_toNat, wordXkk_toNat]
  omega

@[simp] theorem fieldX_wordXkk : fieldX (wordXkk g x kk) = x := by
  have := kk.isLt
  have := x.isLt
  apply Fin.ext
  rw [fieldX_val, wordXkk_toNat]
  omega

@[simp] theorem fieldKk_wordXkk : fieldKk (wordXkk g x kk) = kk := by
  have := kk.isLt
  apply BitVec.eq_of_toNat_eq
  rw [fieldKk_toNat, wordXkk_toNat]
  omega

@[simp] theorem fieldGroup_wordXyn : fieldGroup (wordXyn g x y n) = g := by
  have := n.isLt
  have := x.isLt
  have := y.isLt
  apply BitVec.eq_of_toNat_eq
  rw [fieldGroup_toNat, wordXyn_toNat]
  omega

@[simp] theorem fieldX_wordXyn : fieldX (wordXyn g x y n) = x := by
  have := n.isLt
  have := x.isLt
  have := y.isLt
  apply Fin.ext
  rw [fieldX_val, wordXyn_toNat]
  omega

@[simp] theorem fieldY_wordXyn : fieldY (wordXyn g x y n) = y := by
  have := n.isLt
  have := y.isLt
  apply Fin.ext
  rw [fieldY_val, wordXyn_toNat]
  omega

@[simp] theorem fieldN_wordXyn : fieldN (wordXyn g x y n) = n := by
  have := n.isLt
  apply BitVec.eq_of_toNat_eq
  rw [fieldN_toNat, wordXyn_toNat]
  omega
end

/-- The two bytes a word is stored as are put together to the same word. -/
@[simp] theorem wordOfBytes_extract (w : Word) : wordOfBytes (w.extractLsb' 8 8) (w.extractLsb' 0 8) = w := by
  have := w.isLt
  apply BitVec.eq_of_toNat_eq
  rw [wordOfBytes_toNat]
  simp [BitVec.extractLsb'_toNat, Nat.shiftRight_eq_div_pow]
  omega

end Sys2Proof
end

