-- ==== Sys2Proof/Laws/Memory.lean ====
section
/-! SUPPORT. The laws of memory: what a write does to every address, that every operation keeps the canonical form, and
that two canonical memories which read alike are the same list. -/

namespace Sys2Proof.Machine

/-- Below its first address, a canonical memory reads as its reset contents. -/
theorem Memory.read_of_lt {m : Memory} {lo a : Nat} (h : Memory.wfFrom lo m = true) (ha : a < lo) :
    Memory.read m a = unlistedByte a := by
  induction m generalizing lo with
  | nil => rfl
  | cons cell rest ih =>
    obtain ⟨k, b⟩ := cell
    simp only [Memory.wfFrom, Bool.and_eq_true, decide_eq_true_eq] at h
    have hk : k ≠ a := by omega
    simp only [Memory.read, hk, if_false]
    exact ih h.2 (by omega)

/-- A canonical memory stays canonical from any lower address. -/
theorem Memory.wfFrom_mono {m : Memory} {lo lo' : Nat} (h : Memory.wfFrom lo m = true) (hl : lo' ≤ lo) :
    Memory.wfFrom lo' m = true := by
  cases m with
  | nil => rfl
  | cons cell rest =>
    simp only [Memory.wfFrom, Bool.and_eq_true, decide_eq_true_eq] at h ⊢
    exact ⟨⟨⟨by omega, h.1.1.2⟩, h.1.2⟩, h.2⟩

/-- A write is read back, and reaches no other address. -/
theorem Memory.read_write_from {m : Memory} {lo : Nat} (h : Memory.wfFrom lo m = true) (a : Nat) (b : Byte) (c : Nat) :
    Memory.read (Memory.write m a b) c = if c = a then b else Memory.read m c := by
  induction m generalizing lo with
  | nil =>
    simp only [Memory.write]
    split <;> rename_i hb <;> by_cases hc : c = a
    · subst hc; simp [Memory.read, hb]
    · simp [hc]
    · subst hc; simp [Memory.read]
    · have : a ≠ c := fun e => hc e.symm
      simp [Memory.read, hc, this]
  | cons cell rest ih =>
    obtain ⟨k, u⟩ := cell
    simp only [Memory.wfFrom, Bool.and_eq_true, decide_eq_true_eq] at h
    have ih := ih h.2
    have below : ∀ d, d < k + 1 → Memory.read rest d = unlistedByte d := fun d hd => Memory.read_of_lt h.2 hd
    simp only [Memory.write]
    split
    · rename_i hlt
      have hka : k ≠ a := by omega
      split <;> rename_i hb <;> by_cases hc : c = a
      · subst hc; simp [Memory.read, hka, below c (by omega), hb]
      · simp [hc]
      · subst hc; simp [Memory.read]
      · have : a ≠ c := fun e => hc e.symm
        simp [Memory.read, hc, this]
    · split
      · rename_i hnlt hak
        subst hak
        split <;> rename_i hb <;> by_cases hc : c = a
        · subst hc; simp [below c (by omega), hb]
        · have : a ≠ c := fun e => hc e.symm
          simp [Memory.read, hc, this]
        · subst hc; simp [Memory.read]
        · have : a ≠ c := fun e => hc e.symm
          simp [Memory.read, hc, this]
      · rename_i hnlt hne
        by_cases hkc : k = c
        · have : c ≠ a := by omega
          simp [Memory.read, hkc, this]
        · simp [Memory.read, hkc, ih]

/-- A write at an existing address keeps the canonical form. -/
theorem Memory.wfFrom_write {m : Memory} {lo a : Nat} (h : Memory.wfFrom lo m = true) (b : Byte) (hl : lo ≤ a)
    (ha : a < Config.memSize) : Memory.wfFrom lo (Memory.write m a b) = true := by
  induction m generalizing lo with
  | nil =>
    simp only [Memory.write]
    split
    · rfl
    · rename_i hb; simp [Memory.wfFrom, hl, hb]; exact ha
  | cons cell rest ih =>
    obtain ⟨k, u⟩ := cell
    have h0 := h
    simp only [Memory.wfFrom, Bool.and_eq_true, decide_eq_true_eq] at h
    obtain ⟨⟨⟨hlk, hks⟩, hu⟩, hr⟩ := h
    simp only [Memory.write]
    split
    · split
      · exact h0
      · rename_i hlt hb
        simp only [Memory.wfFrom, Bool.and_eq_true, decide_eq_true_eq, bne_iff_ne]
        exact ⟨⟨⟨hl, ha⟩, hb⟩, ⟨⟨by omega, hks⟩, by simpa using hu⟩, hr⟩
    · split
      · rename_i hak
        split
        · exact Memory.wfFrom_mono hr (by omega)
        · rename_i hb
          subst hak
          simp only [Memory.wfFrom, Bool.and_eq_true, decide_eq_true_eq, bne_iff_ne]
          exact ⟨⟨⟨hl, ha⟩, hb⟩, hr⟩
      · rename_i hnlt hne
        simp only [Memory.wfFrom, Bool.and_eq_true, decide_eq_true_eq]
        exact ⟨⟨⟨hlk, hks⟩, hu⟩, ih hr (by omega)⟩

/-- A write is read back, and reaches no other address. -/
theorem Memory.read_write {m : Memory} (h : Memory.wf m = true) (a : Nat) (b : Byte) (c : Nat) :
    Memory.read (Memory.write m a b) c = if c = a then b else Memory.read m c :=
  Memory.read_write_from (lo := 0) h a b c

/-- A write at an existing address keeps the canonical form. -/
theorem Memory.wf_write {m : Memory} (h : Memory.wf m = true) {a : Nat} (b : Byte) (ha : a < Config.memSize) :
    Memory.wf (Memory.write m a b) = true :=
  Memory.wfFrom_write (lo := 0) h b (Nat.zero_le a) ha

/-- Consecutive writes at existing addresses keep the canonical form. -/
theorem Memory.wf_writeList {m : Memory} (h : Memory.wf m = true) (bs : List Byte) {a : Nat}
    (ha : a + bs.length ≤ Config.memSize) : Memory.wf (Memory.writeList m a bs) = true := by
  induction bs generalizing a with
  | nil => exact h
  | cons b rest ih =>
    simp only [List.length_cons] at ha
    exact Memory.wf_write (ih (by omega)) b (by omega)

/-- Consecutive writes: the bytes lie at their addresses, everything else is as before. -/
theorem Memory.read_writeList {m : Memory} (h : Memory.wf m = true) (bs : List Byte) {a : Nat}
    (ha : a + bs.length ≤ Config.memSize) (c : Nat) :
    Memory.read (Memory.writeList m a bs) c =
      if a ≤ c ∧ c < a + bs.length then bs.getD (c - a) 0 else Memory.read m c := by
  induction bs generalizing a with
  | nil =>
    have : ¬ (a ≤ c ∧ c < a + ([] : List Byte).length) := by simp
    rw [if_neg this]; rfl
  | cons b rest ih =>
    simp only [List.length_cons] at ha
    rw [Memory.writeList, Memory.read_write (Memory.wf_writeList h rest (by omega)), ih (by omega)]
    by_cases hc : c = a
    · subst hc; simp
    · simp only [hc, if_false, List.length_cons]
      by_cases hin : a + 1 ≤ c ∧ c < a + 1 + rest.length
      · have e : c - a = (c - (a + 1)) + 1 := by omega
        have hin' : a ≤ c ∧ c < a + (rest.length + 1) := by omega
        rw [if_pos hin, if_pos hin', e, List.getD_cons_succ]
      · have hin' : ¬ (a ≤ c ∧ c < a + (rest.length + 1)) := by omega
        rw [if_neg hin, if_neg hin']

/-- Canonical memories that read alike everywhere are equal. -/
theorem Memory.ext_from {m m' : Memory} {lo : Nat} (h : Memory.wfFrom lo m = true) (h' : Memory.wfFrom lo m' = true)
    (hr : ∀ a, Memory.read m a = Memory.read m' a) : m = m' := by
  induction m generalizing m' lo with
  | nil =>
    cases m' with
    | nil => rfl
    | cons cell rest =>
      obtain ⟨k, u⟩ := cell
      have := hr k
      simp only [Memory.wfFrom, Bool.and_eq_true, bne_iff_ne] at h'
      simp [Memory.read] at this
      exact absurd this.symm h'.1.2
  | cons cell rest ih =>
    obtain ⟨k, u⟩ := cell
    have h0 := h
    simp only [Memory.wfFrom, Bool.and_eq_true, decide_eq_true_eq, bne_iff_ne] at h
    cases m' with
    | nil =>
      have := hr k
      simp [Memory.read] at this
      exact absurd this h.1.2
    | cons cell' rest' =>
      obtain ⟨k', u'⟩ := cell'
      have h0' := h'
      simp only [Memory.wfFrom, Bool.and_eq_true, decide_eq_true_eq, bne_iff_ne] at h'
      have hk : k = k' := by
        rcases Nat.lt_trichotomy k k' with hlt | heq | hgt
        · have e := hr k
          have hne : k' ≠ k := by omega
          simp only [Memory.read, if_true, hne, if_false] at e
          rw [Memory.read_of_lt h'.2 (by omega)] at e
          exact absurd e h.1.2
        · exact heq
        · have e := hr k'
          have hne : k ≠ k' := by omega
          simp only [Memory.read, if_true, hne, if_false] at e
          rw [Memory.read_of_lt h.2 (by omega)] at e
          exact absurd e.symm h'.1.2
      subst hk
      have hu : u = u' := by simpa [Memory.read] using hr k
      subst hu
      have : rest = rest' := by
        refine ih h.2 h'.2 fun a => ?_
        by_cases ha : k = a
        · subst ha
          rw [Memory.read_of_lt h.2 (by omega), Memory.read_of_lt h'.2 (by omega)]
        · simpa [Memory.read, ha] using hr a
      rw [this]

/-- Canonical memories that read alike everywhere are equal. -/
theorem Memory.ext {m m' : Memory} (h : Memory.wf m = true) (h' : Memory.wf m' = true)
    (hr : ∀ a, Memory.read m a = Memory.read m' a) : m = m' :=
  Memory.ext_from (lo := 0) h h' hr

/-- Memory after reset is canonical. -/
theorem State.reset_mem_wf : Memory.wf State.reset.mem = true := rfl

/-- The font table has the 80 bytes of R58, so every address below 0x050 has one. -/
theorem Config.fontset_length : Config.fontset.length = Config.fontBytes := by decide

end Sys2Proof.Machine
end

