-- ==== Sys2Proof/Laws/State.lean ====
section
/-! SUPPORT. For each update of a state, what every field is afterwards, and how registers, memory and pixels read. -/

namespace Sys2Proof.Machine

/-! ### `setV` -/

@[simp] theorem setV_v (s : State) (x : Reg) (b : Byte) : (s.setV x b).v = s.v.set x b := rfl
@[simp] theorem setV_i (s : State) (x : Reg) (b : Byte) : (s.setV x b).i = s.i := rfl
@[simp] theorem setV_pc (s : State) (x : Reg) (b : Byte) : (s.setV x b).pc = s.pc := rfl
@[simp] theorem setV_sp (s : State) (x : Reg) (b : Byte) : (s.setV x b).sp = s.sp := rfl
@[simp] theorem setV_stack (s : State) (x : Reg) (b : Byte) : (s.setV x b).stack = s.stack := rfl
@[simp] theorem setV_mem (s : State) (x : Reg) (b : Byte) : (s.setV x b).mem = s.mem := rfl
@[simp] theorem setV_fb (s : State) (x : Reg) (b : Byte) : (s.setV x b).fb = s.fb := rfl
@[simp] theorem setV_keys (s : State) (x : Reg) (b : Byte) : (s.setV x b).keys = s.keys := rfl
@[simp] theorem setV_dt (s : State) (x : Reg) (b : Byte) : (s.setV x b).dt = s.dt := rfl
@[simp] theorem setV_st (s : State) (x : Reg) (b : Byte) : (s.setV x b).st = s.st := rfl
@[simp] theorem setV_fault (s : State) (x : Reg) (b : Byte) : (s.setV x b).fault = s.fault := rfl
@[simp] theorem setV_sched (s : State) (x : Reg) (b : Byte) : (s.setV x b).sched = s.sched := rfl
@[simp] theorem setV_draws (s : State) (x : Reg) (b : Byte) : (s.setV x b).draws = s.draws := rfl

/-! ### `setI` -/

@[simp] theorem setI_v (s : State) (w : Word) : (s.setI w).v = s.v := rfl
@[simp] theorem setI_i (s : State) (w : Word) : (s.setI w).i = w := rfl
@[simp] theorem setI_pc (s : State) (w : Word) : (s.setI w).pc = s.pc := rfl
@[simp] theorem setI_sp (s : State) (w : Word) : (s.setI w).sp = s.sp := rfl
@[simp] theorem setI_stack (s : State) (w : Word) : (s.setI w).stack = s.stack := rfl
@[simp] theorem setI_mem (s : State) (w : Word) : (s.setI w).mem = s.mem := rfl
@[simp] theorem setI_fb (s : State) (w : Word) : (s.setI w).fb = s.fb := rfl
@[simp] theorem setI_keys (s : State) (w : Word) : (s.setI w).keys = s.keys := rfl
@[simp] theorem setI_dt (s : State) (w : Word) : (s.setI w).dt = s.dt := rfl
@[simp] theorem setI_st (s : State) (w : Word) : (s.setI w).st = s.st := rfl
@[simp] theorem setI_fault (s : State) (w : Word) : (s.setI w).fault = s.fault := rfl
@[simp] theorem setI_sched (s : State) (w : Word) : (s.setI w).sched = s.sched := rfl
@[simp] theorem setI_draws (s : State) (w : Word) : (s.setI w).draws = s.draws := rfl

/-! ### `jumpTo` -/

@[simp] theorem jumpTo_v (s : State) (w : Word) : (s.jumpTo w).v = s.v := rfl
@[simp] theorem jumpTo_i (s : State) (w : Word) : (s.jumpTo w).i = s.i := rfl
@[simp] theorem jumpTo_pc (s : State) (w : Word) : (s.jumpTo w).pc = w := rfl
@[simp] theorem jumpTo_sp (s : State) (w : Word) : (s.jumpTo w).sp = s.sp := rfl
@[simp] theorem jumpTo_stack (s : State) (w : Word) : (s.jumpTo w).stack = s.stack := rfl
@[simp] theorem jumpTo_mem (s : State) (w : Word) : (s.jumpTo w).mem = s.mem := rfl
@[simp] theorem jumpTo_fb (s : State) (w : Word) : (s.jumpTo w).fb = s.fb := rfl
@[simp] theorem jumpTo_keys (s : State) (w : Word) : (s.jumpTo w).keys = s.keys := rfl
@[simp] theorem jumpTo_dt (s : State) (w : Word) : (s.jumpTo w).dt = s.dt := rfl
@[simp] theorem jumpTo_st (s : State) (w : Word) : (s.jumpTo w).st = s.st := rfl
@[simp] theorem jumpTo_fault (s : State) (w : Word) : (s.jumpTo w).fault = s.fault := rfl
@[simp] theorem jumpTo_sched (s : State) (w : Word) : (s.jumpTo w).sched = s.sched := rfl
@[simp] theorem jumpTo_draws (s : State) (w : Word) : (s.jumpTo w).draws = s.draws := rfl

/-! ### `advance` -/

@[simp] theorem advance_v (s : State) : (s.advance).v = s.v := rfl
@[simp] theorem advance_i (s : State) : (s.advance).i = s.i := rfl
@[simp] theorem advance_pc (s : State) : (s.advance).pc = s.pc + 2 := rfl
@[simp] theorem advance_sp (s : State) : (s.advance).sp = s.sp := rfl
@[simp] theorem advance_stack (s : State) : (s.advance).stack = s.stack := rfl
@[simp] theorem advance_mem (s : State) : (s.advance).mem = s.mem := rfl
@[simp] theorem advance_fb (s : State) : (s.advance).fb = s.fb := rfl
@[simp] theorem advance_keys (s : State) : (s.advance).keys = s.keys := rfl
@[simp] theorem advance_dt (s : State) : (s.advance).dt = s.dt := rfl
@[simp] theorem advance_st (s : State) : (s.advance).st = s.st := rfl
@[simp] theorem advance_fault (s : State) : (s.advance).fault = s.fault := rfl
@[simp] theorem advance_sched (s : State) : (s.advance).sched = s.sched := rfl
@[simp] theorem advance_draws (s : State) : (s.advance).draws = s.draws := rfl

/-! ### `rewind` -/

@[simp] theorem rewind_v (s : State) : (s.rewind).v = s.v := rfl
@[simp] theorem rewind_i (s : State) : (s.rewind).i = s.i := rfl
@[simp] theorem rewind_pc (s : State) : (s.rewind).pc = s.pc - 2 := rfl
@[simp] theorem rewind_sp (s : State) : (s.rewind).sp = s.sp := rfl
@[simp] theorem rewind_stack (s : State) : (s.rewind).stack = s.stack := rfl
@[simp] theorem rewind_mem (s : State) : (s.rewind).mem = s.mem := rfl
@[simp] theorem rewind_fb (s : State) : (s.rewind).fb = s.fb := rfl
@[simp] theorem rewind_keys (s : State) : (s.rewind).keys = s.keys := rfl
@[simp] theorem rewind_dt (s : State) : (s.rewind).dt = s.dt := rfl
@[simp] theorem rewind_st (s : State) : (s.rewind).st = s.st := rfl
@[simp] theorem rewind_fault (s : State) : (s.rewind).fault = s.fault := rfl
@[simp] theorem rewind_sched (s : State) : (s.rewind).sched = s.sched := rfl
@[simp] theorem rewind_draws (s : State) : (s.rewind).draws = s.draws := rfl

/-! ### `flipPixel` -/

@[simp] theorem flipPixel_v (s : State) (r : Fin 32) (c : Fin 64) : (s.flipPixel r c).v = s.v := rfl
@[simp] theorem flipPixel_i (s : State) (r : Fin 32) (c : Fin 64) : (s.flipPixel r c).i = s.i := rfl
@[simp] theorem flipPixel_pc (s : State) (r : Fin 32) (c : Fin 64) : (s.flipPixel r c).pc = s.pc := rfl
@[simp] theorem flipPixel_sp (s : State) (r : Fin 32) (c : Fin 64) : (s.flipPixel r c).sp = s.sp := rfl
@[simp] theorem flipPixel_stack (s : State) (r : Fin 32) (c : Fin 64) : (s.flipPixel r c).stack = s.stack := rfl
@[simp] theorem flipPixel_mem (s : State) (r : Fin 32) (c : Fin 64) : (s.flipPixel r c).mem = s.mem := rfl
@[simp] theorem flipPixel_fb (s : State) (r : Fin 32) (c : Fin 64) : (s.flipPixel r c).fb = s.fb.set r (s.fb[r] ^^^ BitVec.twoPow 64 c) := rfl
@[simp] theorem flipPixel_keys (s : State) (r : Fin 32) (c : Fin 64) : (s.flipPixel r c).keys = s.keys := rfl
@[simp] theorem flipPixel_dt (s : State) (r : Fin 32) (c : Fin 64) : (s.flipPixel r c).dt = s.dt := rfl
@[simp] theorem flipPixel_st (s : State) (r : Fin 32) (c : Fin 64) : (s.flipPixel r c).st = s.st := rfl
@[simp] theorem flipPixel_fault (s : State) (r : Fin 32) (c : Fin 64) : (s.flipPixel r c).fault = s.fault := rfl
@[simp] theorem flipPixel_sched (s : State) (r : Fin 32) (c : Fin 64) : (s.flipPixel r c).sched = s.sched := rfl
@[simp] theorem flipPixel_draws (s : State) (r : Fin 32) (c : Fin 64) : (s.flipPixel r c).draws = s.draws := rfl

/-! ### `raise` -/

@[simp] theorem raise_v (k : FaultCause) (w : Word) (s : State) : (raise k w s).v = s.v := rfl
@[simp] theorem raise_i (k : FaultCause) (w : Word) (s : State) : (raise k w s).i = s.i := rfl
@[simp] theorem raise_pc (k : FaultCause) (w : Word) (s : State) : (raise k w s).pc = s.pc := rfl
@[simp] theorem raise_sp (k : FaultCause) (w : Word) (s : State) : (raise k w s).sp = s.sp := rfl
@[simp] theorem raise_stack (k : FaultCause) (w : Word) (s : State) : (raise k w s).stack = s.stack := rfl
@[simp] theorem raise_mem (k : FaultCause) (w : Word) (s : State) : (raise k w s).mem = s.mem := rfl
@[simp] theorem raise_fb (k : FaultCause) (w : Word) (s : State) : (raise k w s).fb = s.fb := rfl
@[simp] theorem raise_keys (k : FaultCause) (w : Word) (s : State) : (raise k w s).keys = s.keys := rfl
@[simp] theorem raise_dt (k : FaultCause) (w : Word) (s : State) : (raise k w s).dt = s.dt := rfl
@[simp] theorem raise_st (k : FaultCause) (w : Word) (s : State) : (raise k w s).st = s.st := rfl
@[simp] theorem raise_fault (k : FaultCause) (w : Word) (s : State) : (raise k w s).fault = ⟨k, w⟩ := rfl
@[simp] theorem raise_sched (k : FaultCause) (w : Word) (s : State) : (raise k w s).sched = s.sched := rfl
@[simp] theorem raise_draws (k : FaultCause) (w : Word) (s : State) : (raise k w s).draws = s.draws := rfl

/-! ### `draw_snd` -/

@[simp] theorem draw_snd_v (s : State) : ((draw s).2).v = s.v := rfl
@[simp] theorem draw_snd_i (s : State) : ((draw s).2).i = s.i := rfl
@[simp] theorem draw_snd_pc (s : State) : ((draw s).2).pc = s.pc := rfl
@[simp] theorem draw_snd_sp (s : State) : ((draw s).2).sp = s.sp := rfl
@[simp] theorem draw_snd_stack (s : State) : ((draw s).2).stack = s.stack := rfl
@[simp] theorem draw_snd_mem (s : State) : ((draw s).2).mem = s.mem := rfl
@[simp] theorem draw_snd_fb (s : State) : ((draw s).2).fb = s.fb := rfl
@[simp] theorem draw_snd_keys (s : State) : ((draw s).2).keys = s.keys := rfl
@[simp] theorem draw_snd_dt (s : State) : ((draw s).2).dt = s.dt := rfl
@[simp] theorem draw_snd_st (s : State) : ((draw s).2).st = s.st := rfl
@[simp] theorem draw_snd_fault (s : State) : ((draw s).2).fault = s.fault := rfl
@[simp] theorem draw_snd_sched (s : State) : ((draw s).2).sched = s.sched := rfl
@[simp] theorem draw_snd_draws (s : State) : ((draw s).2).draws = s.draws + 1 := rfl

/-! ### The free byte -/

@[simp] theorem draw_fst (s : State) : (draw s).1 = Config.draw8 s.draws := rfl

/-! ### Registers -/

theorem getV_eq (s : State) (x : Reg) : s.getV x = s.v[x] := rfl

/-- A register reads what was last written to it, and a write reaches no other register. -/
theorem getV_setV (s : State) (x r : Reg) (b : Byte) : (s.setV x b).getV r = if x = r then b else s.getV r := by
  simp [State.getV, State.setV, Vector.getElem_set, Fin.ext_iff]

@[simp] theorem getV_setV_same (s : State) (x : Reg) (b : Byte) : (s.setV x b).getV x = b := by simp [getV_setV]

@[simp] theorem getV_setV_of_ne (s : State) (x r : Reg) (b : Byte) (h : x ≠ r) : (s.setV x b).getV r = s.getV r := by
  simp [getV_setV, h]

/-- Writing the value a register holds changes nothing. -/
@[simp] theorem setV_getV (s : State) (x : Reg) : s.setV x (s.getV x) = s := by
  simp [State.setV, State.getV]

@[simp] theorem getV_setI (s : State) (w : Word) (r : Reg) : (s.setI w).getV r = s.getV r := rfl
@[simp] theorem getV_jumpTo (s : State) (w : Word) (r : Reg) : (s.jumpTo w).getV r = s.getV r := rfl
@[simp] theorem getV_advance (s : State) (r : Reg) : s.advance.getV r = s.getV r := rfl
@[simp] theorem getV_rewind (s : State) (r : Reg) : s.rewind.getV r = s.getV r := rfl
@[simp] theorem getV_flipPixel (s : State) (a : Fin 32) (c : Fin 64) (r : Reg) : (s.flipPixel a c).getV r = s.getV r := rfl
@[simp] theorem getV_raise (k : FaultCause) (w : Word) (s : State) (r : Reg) : (raise k w s).getV r = s.getV r := rfl
@[simp] theorem getV_draw_snd (s : State) (r : Reg) : (draw s).2.getV r = s.getV r := rfl

/-! ### Memory reads -/

@[simp] theorem readByte_setV (s : State) (x : Reg) (b : Byte) (a : Nat) : (s.setV x b).readByte a = s.readByte a := rfl
@[simp] theorem readByte_setI (s : State) (w : Word) (a : Nat) : (s.setI w).readByte a = s.readByte a := rfl
@[simp] theorem readByte_jumpTo (s : State) (w : Word) (a : Nat) : (s.jumpTo w).readByte a = s.readByte a := rfl
@[simp] theorem readByte_advance (s : State) (a : Nat) : s.advance.readByte a = s.readByte a := rfl
@[simp] theorem readByte_rewind (s : State) (a : Nat) : s.rewind.readByte a = s.readByte a := rfl
@[simp] theorem readByte_flipPixel (s : State) (r : Fin 32) (c : Fin 64) (a : Nat) :
    (s.flipPixel r c).readByte a = s.readByte a := rfl
@[simp] theorem readByte_raise (k : FaultCause) (w : Word) (s : State) (a : Nat) :
    (raise k w s).readByte a = s.readByte a := rfl
@[simp] theorem readByte_draw_snd (s : State) (a : Nat) : (draw s).2.readByte a = s.readByte a := rfl

/-! ### Pixels -/

/-- A flip inverts its own pixel and no other. -/
theorem pixel_flipPixel (s : State) (r r' : Fin 32) (c c' : Fin 64) :
    (s.flipPixel r c).pixel r' c' = if r = r' ∧ c = c' then !s.pixel r' c' else s.pixel r' c' := by
  by_cases hr : r = r'
  · subst hr
    by_cases hc : c = c'
    · subst hc; simp [State.flipPixel, State.pixel]
    · have : (c' : Nat) ≠ c := fun h => hc (Fin.ext h.symm)
      simp [State.flipPixel, State.pixel, this, hc]
  · have : (r : Nat) ≠ r' := fun h => hr (Fin.ext h)
    simp [State.flipPixel, State.pixel, this, hr]

@[simp] theorem pixel_setV (s : State) (x : Reg) (b : Byte) (r : Fin 32) (c : Fin 64) :
    (s.setV x b).pixel r c = s.pixel r c := rfl
@[simp] theorem pixel_raise (k : FaultCause) (w : Word) (s : State) (r : Fin 32) (c : Fin 64) :
    (raise k w s).pixel r c = s.pixel r c := rfl

/-- Two framebuffers with the same pixels are the same. -/
theorem fb_ext {s t : State} (h : ∀ r c, t.pixel r c = s.pixel r c) : t.fb = s.fb := by
  apply Vector.ext
  intro r hr
  apply BitVec.eq_of_getLsbD_eq
  intro c hc
  exact h ⟨r, hr⟩ ⟨c, hc⟩

/-! ### Ending an instruction -/

@[simp] theorem finish_ok (s : State) : finish (.ok s) = .next s := rfl
@[simp] theorem finish_error (s : State) : finish (.error s) = .next s := rfl

/-- Whatever an instruction does, it ends in a next state. -/
theorem finish_answers (r : Res State) : ∃ t, finish r = .next t := by cases r <;> exact ⟨_, rfl⟩

end Sys2Proof.Machine
end

