-- ==== Sys2Proof/Laws/Ops.lean ====
section
/-! SUPPORT. For each shared operation, everything it can do, so that no later proof unfolds it. -/

namespace Sys2Proof.Machine

/-- An instruction's end, taken apart: it ran through, or it raised. -/
theorem finish_eq_next {r : Res State} {t : State} : finish r = .next t ↔ r = .ok t ∨ r = .error t := by
  cases r <;> simp [finish]

/-! ### Memory accesses -/

theorem memRead_of_lt {a : Nat} (s : State) (h : a < Config.memSize) : memRead a s = .ok (s.readByte a) := if_pos h

theorem memRead_of_ge {a : Nat} (s : State) (h : Config.memSize ≤ a) :
    memRead a s = .error (raise .outOfBoundsMemoryAccess (BitVec.ofNat 16 a) s) := if_neg (Nat.not_lt.mpr h)

theorem memWrite_of_lt {a : Nat} (b : Byte) (s : State) (h : a < Config.memSize) :
    memWrite a b s = .ok { s with mem := Memory.write s.mem a b } := if_pos h

theorem memWrite_of_ge {a : Nat} (b : Byte) (s : State) (h : Config.memSize ≤ a) :
    memWrite a b s = .error (raise .outOfBoundsMemoryAccess (BitVec.ofNat 16 a) s) := if_neg (Nat.not_lt.mpr h)

/-- What a read can do. -/
theorem memRead_cases (a : Nat) (s : State) :
    (a < Config.memSize ∧ memRead a s = .ok (s.readByte a)) ∨
      (Config.memSize ≤ a ∧ memRead a s = .error (raise .outOfBoundsMemoryAccess (BitVec.ofNat 16 a) s)) := by
  rcases Nat.lt_or_ge a Config.memSize with h | h
  · exact .inl ⟨h, memRead_of_lt s h⟩
  · exact .inr ⟨h, memRead_of_ge s h⟩

/-- What a write can do. -/
theorem memWrite_cases (a : Nat) (b : Byte) (s : State) :
    (a < Config.memSize ∧ memWrite a b s = .ok { s with mem := Memory.write s.mem a b }) ∨
      (Config.memSize ≤ a ∧ memWrite a b s = .error (raise .outOfBoundsMemoryAccess (BitVec.ofNat 16 a) s)) := by
  rcases Nat.lt_or_ge a Config.memSize with h | h
  · exact .inl ⟨h, memWrite_of_lt b s h⟩
  · exact .inr ⟨h, memWrite_of_ge b s h⟩

/-! ### The call stack -/

theorem push_of_lt (w : Word) (s : State) (h : s.sp.val < Config.stackDepth) :
    push w s = .ok { s with stack := s.stack.set s.sp.val w, sp := ⟨s.sp.val + 1, Nat.succ_lt_succ h⟩ } := dif_pos h

theorem push_full (w : Word) (s : State) (h : ¬ s.sp.val < Config.stackDepth) :
    push w s = .error (raise .stackOverflow w s) := dif_neg h

theorem pop_of_pos (s : State) (h : 0 < s.sp.val) :
    pop s = .ok (s.stack[s.sp.val - 1]'(by omega), { s with sp := ⟨s.sp.val - 1, by omega⟩ }) := dif_pos h

theorem pop_empty (s : State) (h : ¬ 0 < s.sp.val) : pop s = .error (raise .stackUnderflow 0 s) := dif_neg h

/-! ### Keys -/

theorem keyIndex_of_lt (x : Reg) (s : State) (h : (s.getV x).toNat < Config.nKeys) :
    keyIndex x s = .ok (s.getV x).toNat := if_pos h

theorem keyIndex_of_ge (x : Reg) (s : State) (h : ¬ (s.getV x).toNat < Config.nKeys) :
    keyIndex x s = .error (raise .keyIndexOutOfRange (wordOfByte (s.getV x)) s) := if_neg h

/-- The scan finds the least pressed key. -/
theorem lowestKey_eq_some {s : State} {k : Fin 16} :
    s.lowestKey = some k ↔ s.keyDown k = true ∧ ∀ j : Fin 16, j < k → s.keyDown j = false := by
  revert k
  unfold State.lowestKey
  generalize s.keyDown = p
  intro k
  simp only [List.find?_eq_some_iff_getElem, List.getElem_finRange, List.length_finRange]
  constructor
  · rintro ⟨hk, i, hi, rfl, hlt⟩
    refine ⟨by simpa using hk, fun j hj => ?_⟩
    simpa using hlt j.val (by simpa [Fin.lt_def] using hj)
  · rintro ⟨hk, hlt⟩
    refine ⟨by simpa using hk, k.val, k.isLt, by simp, fun j hj => ?_⟩
    have := hlt ⟨j, by omega⟩ (by simpa [Fin.lt_def] using hj)
    simpa using this

/-- The scan finds nothing when no key is pressed. -/
theorem lowestKey_eq_none {s : State} : s.lowestKey = none ↔ ∀ k : Fin 16, s.keyDown k = false := by
  simp [State.lowestKey, List.find?_eq_none]

/-! ### Loops -/

/-- A loop whose body never raises from states that meet `P k` runs through and ends in `P n`. -/
theorem forUpTo_inv {body : Nat → State → Res State} {P : Nat → State → Prop} {s : State} {n : Nat} (h0 : P 0 s)
    (hs : ∀ k t, k < n → P k t → ∃ t', body k t = .ok t' ∧ P (k + 1) t') : ∃ t, forUpTo body n s = .ok t ∧ P n t := by
  induction n with
  | zero => exact ⟨s, rfl, h0⟩
  | succ n ih =>
    obtain ⟨t, ht, hp⟩ := ih fun k t hk => hs k t (by omega)
    obtain ⟨t', ht', hp'⟩ := hs n t (by omega) hp
    exact ⟨t', by simp [forUpTo, ht, ht'], hp'⟩

/-- A loop that raised stays as it is for any longer count. -/
theorem forUpTo_error_mono {body : Nat → State → Res State} {s e : State} {m n : Nat} (h : forUpTo body m s = .error e)
    (hmn : m ≤ n) : forUpTo body n s = .error e := by
  induction n with
  | zero => obtain rfl : m = 0 := by omega
            exact h
  | succ n ih =>
    rcases Nat.lt_or_ge n m with hlt | hge
    · obtain rfl : m = n + 1 := by omega
      exact h
    · simp [forUpTo, ih hge]

/-- A loop stops where its body first raises. -/
theorem forUpTo_stops {body : Nat → State → Res State} {s t e : State} {m n : Nat} (h : forUpTo body m s = .ok t)
    (hb : body m t = .error e) (hmn : m < n) : forUpTo body n s = .error e :=
  forUpTo_error_mono (m := m + 1) (by simp [forUpTo, h, hb]) (by omega)

/-- What every iteration keeps, the loop keeps; what holds where an iteration raises, holds where the loop stops. -/
theorem forUpTo_keeps {body : Nat → State → Res State} {P Q : State → Prop} {s : State} {n : Nat} (h0 : P s)
    (hok : ∀ k t t', k < n → P t → body k t = .ok t' → P t') (herr : ∀ k t e, k < n → P t → body k t = .error e → Q e) :
    (∀ t, forUpTo body n s = .ok t → P t) ∧ (∀ e, forUpTo body n s = .error e → Q e) := by
  induction n with
  | zero => simp [forUpTo, h0]
  | succ n ih =>
    obtain ⟨ihok, iherr⟩ := ih (fun k t t' hk => hok k t t' (by omega)) (fun k t e hk => herr k t e (by omega))
    simp only [forUpTo]
    split
    · rename_i t ht
      exact ⟨fun t' h' => hok n t t' (by omega) (ihok t ht) h', fun e he => herr n t e (by omega) (ihok t ht) he⟩
    · rename_i e he
      exact ⟨fun t' h' => (by cases h'), fun e' he' => by cases he'; exact iherr _ he⟩

/-- What holds at the start and is kept by every iteration holds at the end. -/
theorem iterUpTo_inv {body : Nat → State → State} {P : Nat → State → Prop} {s : State} {n : Nat} (h0 : P 0 s)
    (hs : ∀ k t, k < n → P k t → P (k + 1) (body k t)) : P n (iterUpTo body n s) := by
  induction n with
  | zero => exact h0
  | succ n ih => exact hs n _ (by omega) (ih fun k t hk => hs k t (by omega))

end Sys2Proof.Machine
end

