-- ==== Sys2Proof/Laws/PerInstr.lean ====
section
/-! SUPPORT. Per instruction: its word selects its own row of the opcode map (30_encoding.md R85). -/

namespace Sys2Proof.Laws.EncodeMatch

/-- The `mask` column of R85. -/
def mask : Instr → Word
  | .cls => 0xFFFF
  | .ret => 0xFFFF
  | .jp _ => 0xF000
  | .call _ => 0xF000
  | .seImm _ _ => 0xF000
  | .sneImm _ _ => 0xF000
  | .seReg _ _ => 0xF00F
  | .ldImm _ _ => 0xF000
  | .addImm _ _ => 0xF000
  | .ldReg _ _ => 0xF00F
  | .orReg _ _ => 0xF00F
  | .andReg _ _ => 0xF00F
  | .xorReg _ _ => 0xF00F
  | .addReg _ _ => 0xF00F
  | .sub _ _ => 0xF00F
  | .shr _ _ => 0xF00F
  | .subn _ _ => 0xF00F
  | .shl _ _ => 0xF00F
  | .sneReg _ _ => 0xF00F
  | .ldI _ => 0xF000
  | .jpV0 _ => 0xF000
  | .rnd _ _ => 0xF000
  | .drw _ _ _ => 0xF000
  | .skp _ => 0xF0FF
  | .sknp _ => 0xF0FF
  | .ldVxDt _ => 0xF0FF
  | .ldVxK _ => 0xF0FF
  | .ldDtVx _ => 0xF0FF
  | .ldStVx _ => 0xF0FF
  | .addI _ => 0xF0FF
  | .ldF _ => 0xF0FF
  | .ldB _ => 0xF0FF
  | .stRegs _ => 0xF0FF
  | .ldRegs _ => 0xF0FF
  | .sys _ => 0xF000

/-- The `match` column of R85. -/
def pattern : Instr → Word
  | .cls => 0x00E0
  | .ret => 0x00EE
  | .jp _ => 0x1000
  | .call _ => 0x2000
  | .seImm _ _ => 0x3000
  | .sneImm _ _ => 0x4000
  | .seReg _ _ => 0x5000
  | .ldImm _ _ => 0x6000
  | .addImm _ _ => 0x7000
  | .ldReg _ _ => 0x8000
  | .orReg _ _ => 0x8001
  | .andReg _ _ => 0x8002
  | .xorReg _ _ => 0x8003
  | .addReg _ _ => 0x8004
  | .sub _ _ => 0x8005
  | .shr _ _ => 0x8006
  | .subn _ _ => 0x8007
  | .shl _ _ => 0x800E
  | .sneReg _ _ => 0x9000
  | .ldI _ => 0xA000
  | .jpV0 _ => 0xB000
  | .rnd _ _ => 0xC000
  | .drw _ _ _ => 0xD000
  | .skp _ => 0xE09E
  | .sknp _ => 0xE0A1
  | .ldVxDt _ => 0xF007
  | .ldVxK _ => 0xF00A
  | .ldDtVx _ => 0xF015
  | .ldStVx _ => 0xF018
  | .addI _ => 0xF01E
  | .ldF _ => 0xF029
  | .ldB _ => 0xF033
  | .stRegs _ => 0xF055
  | .ldRegs _ => 0xF065
  | .sys _ => 0x0000

/-- The instruction's word under the mask of its row is the row's match. -/
def Statement (i : Instr) : Prop := encode i &&& mask i = pattern i

theorem and_mask_group (w : Word) : w &&& 0xF000 = (fieldGroup w).zeroExtend 16 <<< 12 := by
  apply BitVec.eq_of_getLsbD_eq
  intro i hi
  have h : i = 0 ∨ i = 1 ∨ i = 2 ∨ i = 3 ∨ i = 4 ∨ i = 5 ∨ i = 6 ∨ i = 7 ∨ i = 8 ∨ i = 9 ∨ i = 10 ∨ i = 11 ∨ i = 12 ∨ i = 13 ∨
    i = 14 ∨ i = 15 := by omega
  rcases h with rfl | rfl | rfl | rfl | rfl | rfl | rfl | rfl | rfl | rfl | rfl | rfl | rfl | rfl | rfl | rfl <;>
    simp [fieldGroup]

theorem and_mask_group_n (w : Word) :
    w &&& 0xF00F = (fieldGroup w).zeroExtend 16 <<< 12 ||| (fieldN w).zeroExtend 16 := by
  apply BitVec.eq_of_getLsbD_eq
  intro i hi
  have h : i = 0 ∨ i = 1 ∨ i = 2 ∨ i = 3 ∨ i = 4 ∨ i = 5 ∨ i = 6 ∨ i = 7 ∨ i = 8 ∨ i = 9 ∨ i = 10 ∨ i = 11 ∨ i = 12 ∨ i = 13 ∨
    i = 14 ∨ i = 15 := by omega
  rcases h with rfl | rfl | rfl | rfl | rfl | rfl | rfl | rfl | rfl | rfl | rfl | rfl | rfl | rfl | rfl | rfl <;>
    simp [fieldGroup, fieldN]

theorem and_mask_group_kk (w : Word) :
    w &&& 0xF0FF = (fieldGroup w).zeroExtend 16 <<< 12 ||| (fieldKk w).zeroExtend 16 := by
  apply BitVec.eq_of_getLsbD_eq
  intro i hi
  have h : i = 0 ∨ i = 1 ∨ i = 2 ∨ i = 3 ∨ i = 4 ∨ i = 5 ∨ i = 6 ∨ i = 7 ∨ i = 8 ∨ i = 9 ∨ i = 10 ∨ i = 11 ∨ i = 12 ∨ i = 13 ∨
    i = 14 ∨ i = 15 := by omega
  rcases h with rfl | rfl | rfl | rfl | rfl | rfl | rfl | rfl | rfl | rfl | rfl | rfl | rfl | rfl | rfl | rfl <;>
    simp [fieldGroup, fieldKk]

theorem cls : Statement (.cls) := rfl
theorem ret : Statement (.ret) := rfl
theorem jp (nnn : Addr) : Statement (.jp nnn) := (and_mask_group _).trans (by rw [encode, fieldGroup_wordNnn]; rfl)
theorem call (nnn : Addr) : Statement (.call nnn) :=
  (and_mask_group _).trans (by rw [encode, fieldGroup_wordNnn]; rfl)
theorem seImm (x : Reg) (kk : Byte) : Statement (.seImm x kk) :=
  (and_mask_group _).trans (by rw [encode, fieldGroup_wordXkk]; rfl)
theorem sneImm (x : Reg) (kk : Byte) : Statement (.sneImm x kk) :=
  (and_mask_group _).trans (by rw [encode, fieldGroup_wordXkk]; rfl)
theorem seReg (x y : Reg) : Statement (.seReg x y) :=
  (and_mask_group_n _).trans (by rw [encode, fieldGroup_wordXyn, fieldN_wordXyn]; rfl)
theorem ldImm (x : Reg) (kk : Byte) : Statement (.ldImm x kk) :=
  (and_mask_group _).trans (by rw [encode, fieldGroup_wordXkk]; rfl)
theorem addImm (x : Reg) (kk : Byte) : Statement (.addImm x kk) :=
  (and_mask_group _).trans (by rw [encode, fieldGroup_wordXkk]; rfl)
theorem ldReg (x y : Reg) : Statement (.ldReg x y) :=
  (and_mask_group_n _).trans (by rw [encode, fieldGroup_wordXyn, fieldN_wordXyn]; rfl)
theorem orReg (x y : Reg) : Statement (.orReg x y) :=
  (and_mask_group_n _).trans (by rw [encode, fieldGroup_wordXyn, fieldN_wordXyn]; rfl)
theorem andReg (x y : Reg) : Statement (.andReg x y) :=
  (and_mask_group_n _).trans (by rw [encode, fieldGroup_wordXyn, fieldN_wordXyn]; rfl)
theorem xorReg (x y : Reg) : Statement (.xorReg x y) :=
  (and_mask_group_n _).trans (by rw [encode, fieldGroup_wordXyn, fieldN_wordXyn]; rfl)
theorem addReg (x y : Reg) : Statement (.addReg x y) :=
  (and_mask_group_n _).trans (by rw [encode, fieldGroup_wordXyn, fieldN_wordXyn]; rfl)
theorem sub (x y : Reg) : Statement (.sub x y) :=
  (and_mask_group_n _).trans (by rw [encode, fieldGroup_wordXyn, fieldN_wordXyn]; rfl)
theorem shr (x y : Reg) : Statement (.shr x y) :=
  (and_mask_group_n _).trans (by rw [encode, fieldGroup_wordXyn, fieldN_wordXyn]; rfl)
theorem subn (x y : Reg) : Statement (.subn x y) :=
  (and_mask_group_n _).trans (by rw [encode, fieldGroup_wordXyn, fieldN_wordXyn]; rfl)
theorem shl (x y : Reg) : Statement (.shl x y) :=
  (and_mask_group_n _).trans (by rw [encode, fieldGroup_wordXyn, fieldN_wordXyn]; rfl)
theorem sneReg (x y : Reg) : Statement (.sneReg x y) :=
  (and_mask_group_n _).trans (by rw [encode, fieldGroup_wordXyn, fieldN_wordXyn]; rfl)
theorem ldI (nnn : Addr) : Statement (.ldI nnn) := (and_mask_group _).trans (by rw [encode, fieldGroup_wordNnn]; rfl)
theorem jpV0 (nnn : Addr) : Statement (.jpV0 nnn) :=
  (and_mask_group _).trans (by rw [encode, fieldGroup_wordNnn]; rfl)
theorem rnd (x : Reg) (kk : Byte) : Statement (.rnd x kk) :=
  (and_mask_group _).trans (by rw [encode, fieldGroup_wordXkk]; rfl)
theorem drw (x y : Reg) (n : Nibble) : Statement (.drw x y n) :=
  (and_mask_group _).trans (by rw [encode, fieldGroup_wordXyn]; rfl)
theorem skp (x : Reg) : Statement (.skp x) :=
  (and_mask_group_kk _).trans (by rw [encode, fieldGroup_wordXkk, fieldKk_wordXkk]; rfl)
theorem sknp (x : Reg) : Statement (.sknp x) :=
  (and_mask_group_kk _).trans (by rw [encode, fieldGroup_wordXkk, fieldKk_wordXkk]; rfl)
theorem ldVxDt (x : Reg) : Statement (.ldVxDt x) :=
  (and_mask_group_kk _).trans (by rw [encode, fieldGroup_wordXkk, fieldKk_wordXkk]; rfl)
theorem ldVxK (x : Reg) : Statement (.ldVxK x) :=
  (and_mask_group_kk _).trans (by rw [encode, fieldGroup_wordXkk, fieldKk_wordXkk]; rfl)
theorem ldDtVx (x : Reg) : Statement (.ldDtVx x) :=
  (and_mask_group_kk _).trans (by rw [encode, fieldGroup_wordXkk, fieldKk_wordXkk]; rfl)
theorem ldStVx (x : Reg) : Statement (.ldStVx x) :=
  (and_mask_group_kk _).trans (by rw [encode, fieldGroup_wordXkk, fieldKk_wordXkk]; rfl)
theorem addI (x : Reg) : Statement (.addI x) :=
  (and_mask_group_kk _).trans (by rw [encode, fieldGroup_wordXkk, fieldKk_wordXkk]; rfl)
theorem ldF (x : Reg) : Statement (.ldF x) :=
  (and_mask_group_kk _).trans (by rw [encode, fieldGroup_wordXkk, fieldKk_wordXkk]; rfl)
theorem ldB (x : Reg) : Statement (.ldB x) :=
  (and_mask_group_kk _).trans (by rw [encode, fieldGroup_wordXkk, fieldKk_wordXkk]; rfl)
theorem stRegs (x : Reg) : Statement (.stRegs x) :=
  (and_mask_group_kk _).trans (by rw [encode, fieldGroup_wordXkk, fieldKk_wordXkk]; rfl)
theorem ldRegs (x : Reg) : Statement (.ldRegs x) :=
  (and_mask_group_kk _).trans (by rw [encode, fieldGroup_wordXkk, fieldKk_wordXkk]; rfl)
theorem sys (nnn : Addr) : Statement (.sys nnn) := (and_mask_group _).trans (by rw [encode, fieldGroup_wordNnn]; rfl)

end Sys2Proof.Laws.EncodeMatch
end

