-- ==== Sys2Proof/Laws/Step.lean ====
section
/-! SUPPORT. Everything a fetch, a cycle and a step can do. -/

namespace Sys2Proof.Machine

/-- The fetch succeeds exactly when both bytes exist, and then reads them high byte first. -/
theorem fetch_of_lt (s : State) (h : s.pc.toNat + 1 < Config.memSize) :
    fetch s = .ok (wordOfBytes (s.readByte s.pc.toNat) (s.readByte (s.pc.toNat + 1))) := by
  simp [fetch, memRead_of_lt s (show s.pc.toNat < Config.memSize by omega), memRead_of_lt s h]

/-- Otherwise it faults at the first address above 4095, with `pc` unchanged. -/
theorem fetch_of_ge (s : State) (h : Config.memSize ≤ s.pc.toNat + 1) :
    fetch s = .error (raise .outOfBoundsMemoryAccess (BitVec.ofNat 16 (max s.pc.toNat Config.memSize)) s) := by
  rcases Nat.lt_or_ge s.pc.toNat Config.memSize with hlt | hge
  · have : max s.pc.toNat Config.memSize = s.pc.toNat + 1 := by omega
    simp [fetch, memRead_of_lt s hlt, memRead_of_ge s h, this]
  · simp [fetch, memRead_of_ge s hge, Nat.max_eq_left hge]

/-- What a cycle can do: nothing, fault in the fetch, fault in the decoder, or run an instruction. -/
theorem cycle_cases (s : State) :
    (s.halted = true ∧ cycle s = .next s) ∨
    (s.halted = false ∧ Config.memSize ≤ s.pc.toNat + 1 ∧ cycle s =
      .next (raise .outOfBoundsMemoryAccess (BitVec.ofNat 16 (max s.pc.toNat Config.memSize)) s)) ∨
    (s.halted = false ∧ s.pc.toNat + 1 < Config.memSize ∧ ∃ w e, fetch s = .ok w ∧ decodeWord w = .error e ∧
      cycle s = .next (raise .unknownOpcode w s.advance)) ∨
    (s.halted = false ∧ s.pc.toNat + 1 < Config.memSize ∧ ∃ w i, fetch s = .ok w ∧ decodeWord w = .ok i ∧
      cycle s = exec i s.advance) := by
  rcases hh : s.halted with _ | _
  · rcases Nat.lt_or_ge (s.pc.toNat + 1) Config.memSize with hlt | hge
    · have hf := fetch_of_lt s hlt
      cases hd : decodeWord (wordOfBytes (s.readByte s.pc.toNat) (s.readByte (s.pc.toNat + 1))) with
      | ok i => exact .inr (.inr (.inr ⟨rfl, hlt, _, i, hf, hd, by simp [cycle, hh, hf, runWord, hd]⟩))
      | error e => exact .inr (.inr (.inl ⟨rfl, hlt, _, e, hf, hd, by simp [cycle, hh, hf, runWord, hd]⟩))
    · exact .inr (.inl ⟨rfl, hge, by simp [cycle, hh, fetch_of_ge s hge]⟩)
  · exact .inl ⟨rfl, by simp [cycle, hh]⟩

/-- What a step can do: a cycle when the schedule is empty, else the first event of the schedule. -/
theorem step_cases (s : State) :
    (s.sched = [] ∧ step s = cycle s) ∨
    (∃ e rest, s.sched = e :: rest ∧ step s = applyEvent e { s with sched := rest }) := by
  cases h : s.sched with
  | nil => exact .inl ⟨rfl, by simp [step, h]⟩
  | cons e rest => exact .inr ⟨e, rest, rfl, by simp [step, h]⟩

end Sys2Proof.Machine
end

