-- ==== Sys2Proof/Laws/Terms.lean ====
section
/-! SUPPORT. The terms of Safety.lean in the terms of the machine, and what the loops and skips of the meanings do. -/

namespace Sys2Proof.Laws

open Sys2Proof.Machine Sys2Proof.Safety

/-! ### Words -/

theorem patNnn_eq (g : Nibble) (nnn : Addr) : patNnn g.toNat nnn = wordNnn g nnn := by
  apply BitVec.eq_of_toNat_eq
  have := nnn.isLt
  have := g.isLt
  rw [wordNnn_toNat]; simp [patNnn]; omega

theorem patXkk_eq (g : Nibble) (x : Reg) (kk : Byte) : patXkk g.toNat x kk = wordXkk g x kk := by
  apply BitVec.eq_of_toNat_eq
  have := kk.isLt
  have := g.isLt
  have := x.isLt
  rw [wordXkk_toNat]; simp [patXkk]; omega

theorem patXyn_eq (g : Nibble) (x y : Reg) (n : Nibble) : patXyn g.toNat x y n.toNat = wordXyn g x y n := by
  apply BitVec.eq_of_toNat_eq
  have := n.isLt
  have := g.isLt
  have := x.isLt
  have := y.isLt
  rw [wordXyn_toNat]; simp [patXyn]; omega

/-- The word of two bytes of memory is what a fetch makes of them. -/
theorem wordAt_eq (s : State) (a : Nat) : wordAt s a = wordOfBytes (s.readByte a) (s.readByte (a + 1)) := by
  apply BitVec.eq_of_toNat_eq
  have := (s.readByte a).isLt
  have := (s.readByte (a + 1)).isLt
  rw [wordOfBytes_toNat]; simp [wordAt]; omega

/-! ### The next event -/

theorem afterEvent_nil {s : State} (h : s.sched = []) : afterEvent s = s := by
  cases s; simp_all [afterEvent]

/-- A step whose event is a `CYCLE` is a cycle of the state with that event taken off. -/
theorem step_of_cycleNext {s : State} (h : CycleNext s) : step s = cycle (afterEvent s) := by
  rcases h with h | h
  · rw [afterEvent_nil h, step, h]
  · rcases step_cases s with ⟨h1, h2⟩ | ⟨e, rest, h1, h2⟩
    · simp [h1] at h
    · simp only [h1, List.head?_cons, Option.some.injEq] at h
      subst h
      rw [h2]; simp [applyEvent, afterEvent, h1]

/-! ### Frames of one update -/

/-- A skip changes `pc` alone, and how. -/
theorem skipIf_spec (c : Bool) (s : State) :
    OnlyPc s (skipIf c s) ∧ (skipIf c s).pc = if c = true then s.pc + 2 else s.pc := by
  cases c <;> exact ⟨⟨rfl, fun _ _ => rfl, fun _ _ => rfl⟩, rfl⟩

theorem onlyRegs_setV (s : State) (b : Byte) {x : Reg} {written : List Reg} (h : x ∈ written) :
    OnlyRegs s (s.setV x b) written :=
  ⟨rfl, fun _ hr => getV_setV_of_ne _ _ _ _ fun e => hr (e ▸ h), fun _ _ => rfl⟩

theorem onlyRegs_setV_setV (s : State) (a b : Byte) {x y : Reg} {written : List Reg} (h : x ∈ written)
    (h' : y ∈ written) : OnlyRegs s ((s.setV x a).setV y b) written := by
  refine ⟨rfl, fun r hr => ?_, fun _ _ => rfl⟩
  have hy : y ≠ r := fun e => hr (e ▸ h')
  have hx : x ≠ r := fun e => hr (e ▸ h)
  rw [getV_setV_of_ne _ _ _ _ hy, getV_setV_of_ne _ _ _ _ hx]

theorem mem_addrsFromI {s : State} {n a : Nat} : a ∈ addrsFromI s n ↔ ∃ k, k < n ∧ a = effAddr s k := by
  simp [addrsFromI, eq_comm]

/-! ### Loops -/

/-- A change of a state outside what a loop reads, applied to where the loop ends. -/
def onEnd (f : State → State) : Res State → Res State
  | .ok t => .ok (f t)
  | .error t => .error (f t)

/-- A loop whose body commutes with a change of state commutes with it. -/
theorem forUpTo_comm {f : State → State} {body : Nat → State → Res State}
    (hb : ∀ k s, body k (f s) = onEnd f (body k s)) (n : Nat) (s : State) :
    forUpTo body n (f s) = onEnd f (forUpTo body n s) := by
  induction n with
  | zero => rfl
  | succ n ih => simp only [forUpTo]; rw [ih]; cases forUpTo body n s <;> simp [onEnd, hb]

theorem finish_onEnd {f : State → State} {r : Res State} {t : State} (h : finish r = .next t) :
    finish (onEnd f r) = .next (f t) := by
  cases r <;> cases h <;> rfl

/-- The stores of `Fx33` and `Fx55` that all lie in memory: each address holds its byte, every other one is kept. -/
theorem storeLoop {f : Nat → State → Byte} {g : Nat → Byte} {s : State} (hm : Memory.wf s.mem = true)
    (hfg : ∀ k t, t.v = s.v → f k t = g k) (n : Nat) (hn : s.i.toNat + n ≤ 4096) :
    ∃ t, forUpTo (fun k t => memWrite (effAddr t k) (f k t) t) n s = .ok t ∧ t = { s with mem := t.mem } ∧
      Memory.wf t.mem = true ∧ (∀ k, k < n → t.readByte (effAddr s k) = g k) ∧
      ∀ a, (a < s.i.toNat ∨ s.i.toNat + n ≤ a) → t.readByte a = s.readByte a := by
  refine forUpTo_inv (P := fun n t => t = { s with mem := t.mem } ∧ Memory.wf t.mem = true ∧
    (∀ k, k < n → t.readByte (effAddr s k) = g k) ∧
    ∀ a, (a < s.i.toNat ∨ s.i.toNat + n ≤ a) → t.readByte a = s.readByte a) ⟨rfl, hm, by omega, fun _ _ => rfl⟩ ?_
  intro k t hk ⟨h1, h2, h3, h4⟩
  have hi : t.i = s.i := by rw [h1]
  have hv : t.v = s.v := by rw [h1]
  have he : effAddr t k = s.i.toNat + k := by simp [effAddr, hi]
  refine ⟨_, memWrite_of_lt _ t (show effAddr t k < 4096 by omega), ?_,
    Memory.wf_write h2 _ (show effAddr t k < 4096 by omega), ?_, ?_⟩
  · rw [h1]
  · intro j hj
    simp only [State.readByte, Memory.read_write h2, he, hfg k t hv]
    by_cases e : j = k
    · subst e; simp [effAddr]
    · rw [if_neg (by simp only [effAddr]; omega)]; exact h3 j (by omega)
  · intro a ha
    simp only [State.readByte, Memory.read_write h2, he]
    rw [if_neg (by omega)]; exact h4 a (by omega)

/-- The loads of `Fx65` that all lie in memory. -/
theorem loadLoop {s : State} (n : Nat) (hn : s.i.toNat + n ≤ 4096) (h16 : n ≤ 16) :
    ∃ t, forUpTo loadReg n s = .ok t ∧ t = { s with v := t.v } ∧
      ∀ r : Reg, t.getV r = if r.val < n then s.readByte (effAddr s r.val) else s.getV r := by
  refine forUpTo_inv (P := fun n t => t = { s with v := t.v } ∧
    ∀ r : Reg, t.getV r = if r.val < n then s.readByte (effAddr s r.val) else s.getV r) ⟨rfl, by simp⟩ ?_
  intro k t hk ⟨h1, h2⟩
  have hi : t.i = s.i := by rw [h1]
  have hr : ∀ a, t.readByte a = s.readByte a := by intro a; rw [h1]; rfl
  have he : effAddr t k = s.i.toNat + k := by simp [effAddr, hi]
  have hreg : ∀ r : Reg, regOfNat r.val = r := fun r => by simp [regOfNat]
  refine ⟨_, by simp only [loadReg]; rw [memRead_of_lt t (show effAddr t k < 4096 by omega)], ?_, ?_⟩
  · rw [h1]; rfl
  · intro r
    rw [getV_setV, hr, he, h2]
    by_cases e : regOfNat k = r
    · have : k = r.val := by rw [← e]; simp [regOfNat]; omega
      rw [if_pos e, if_pos (by omega), this]; rfl
    · have : k ≠ r.val := fun h => e (by rw [h]; exact hreg r)
      rw [if_neg e]; congr 1; simp; omega

end Sys2Proof.Laws
end

