-- ==== Sys2Proof/Machine/Disasm.lean ====
section
/-! DEFINITION. The text of a word (30_encoding.md R92 to R96). It is no part of the machine (00_scope.md R4) and no
step calls it; it is here so that the spec's text rules can be checked. Text is a list of characters. -/

namespace Sys2Proof.Machine

/-- One upper-case hexadecimal digit (R92). -/
def hexDigit (d : Nat) : Char :=
  ['0', '1', '2', '3', '4', '5', '6', '7', '8', '9', 'A', 'B', 'C', 'D', 'E', 'F'].getD d '0'

/-- Exactly `n` hexadecimal digits, most significant first, no prefix (R92). -/
def hexText : Nat → Nat → List Char
  | 0, _ => []
  | n + 1, v => hexText n (v / 16) ++ [hexDigit (v % 16)]

/-- A register: `V` and one digit (R94). -/
def regText (x : Reg) : List Char := 'V' :: hexText 1 x.val

/-- Mnemonic and operands: one space after the mnemonic, commas without a space between operands (R92, R93). -/
def lineText (mnemonic : List Char) (operands : List (List Char)) : List Char :=
  match operands with
  | [] => mnemonic
  | _ => mnemonic ++ ' ' :: List.intercalate [','] operands

/-- The text of an instruction, one line per row of R94. -/
def instrText : Instr → List Char
  | .cls => lineText ['C', 'L', 'S'] []
  | .ret => lineText ['R', 'E', 'T'] []
  | .jp nnn => lineText ['J', 'P'] [hexText 3 nnn.toNat]
  | .call nnn => lineText ['C', 'A', 'L', 'L'] [hexText 3 nnn.toNat]
  | .seImm x kk => lineText ['S', 'E'] [regText x, hexText 2 kk.toNat]
  | .sneImm x kk => lineText ['S', 'N', 'E'] [regText x, hexText 2 kk.toNat]
  | .seReg x y => lineText ['S', 'E'] [regText x, regText y]
  | .ldImm x kk => lineText ['L', 'D'] [regText x, hexText 2 kk.toNat]
  | .addImm x kk => lineText ['A', 'D', 'D'] [regText x, hexText 2 kk.toNat]
  | .ldReg x y => lineText ['L', 'D'] [regText x, regText y]
  | .orReg x y => lineText ['O', 'R'] [regText x, regText y]
  | .andReg x y => lineText ['A', 'N', 'D'] [regText x, regText y]
  | .xorReg x y => lineText ['X', 'O', 'R'] [regText x, regText y]
  | .addReg x y => lineText ['A', 'D', 'D'] [regText x, regText y]
  | .sub x y => lineText ['S', 'U', 'B'] [regText x, regText y]
  | .shr x y => lineText ['S', 'H', 'R'] [regText x, regText y]
  | .subn x y => lineText ['S', 'U', 'B', 'N'] [regText x, regText y]
  | .shl x y => lineText ['S', 'H', 'L'] [regText x, regText y]
  | .sneReg x y => lineText ['S', 'N', 'E'] [regText x, regText y]
  | .ldI nnn => lineText ['L', 'D'] [['I'], hexText 3 nnn.toNat]
  | .jpV0 nnn => lineText ['J', 'P'] [['V', '0'], hexText 3 nnn.toNat]
  | .rnd x kk => lineText ['R', 'N', 'D'] [regText x, hexText 2 kk.toNat]
  | .drw x y n => lineText ['D', 'R', 'W'] [regText x, regText y, hexText 1 n.toNat]
  | .skp x => lineText ['S', 'K', 'P'] [regText x]
  | .sknp x => lineText ['S', 'K', 'N', 'P'] [regText x]
  | .ldVxDt x => lineText ['L', 'D'] [regText x, ['D', 'T']]
  | .ldVxK x => lineText ['L', 'D'] [regText x, ['K']]
  | .ldDtVx x => lineText ['L', 'D'] [['D', 'T'], regText x]
  | .ldStVx x => lineText ['L', 'D'] [['S', 'T'], regText x]
  | .addI x => lineText ['A', 'D', 'D'] [['I'], regText x]
  | .ldF x => lineText ['L', 'D'] [['F'], regText x]
  | .ldB x => lineText ['L', 'D'] [['B'], regText x]
  | .stRegs x => lineText ['L', 'D'] [['[', 'I', ']'], regText x]
  | .ldRegs x => lineText ['L', 'D'] [regText x, ['[', 'I', ']']]
  | .sys nnn => lineText ['S', 'Y', 'S'] [hexText 3 nnn.toNat]

/-- The text of any of the 65536 words (R95). -/
def disassemble (w : Word) : List Char :=
  match decodeWord w with
  | .ok i => instrText i
  | .error _ => lineText ['U', 'N', 'K', 'N', 'O', 'W', 'N'] [hexText 4 w.toNat]

/-- One line of a listing (R96): address, colon, space, opcode, three spaces, text. -/
def listingLine (s : State) (a : Nat) : List Char :=
  let w := wordOfBytes (s.readByte a) (s.readByte (a + 1))
  hexText 3 a ++ [':', ' '] ++ hexText 4 w.toNat ++ [' ', ' ', ' '] ++ disassemble w

/-- The addresses of a listing: 0x200, 0x202, to 0xFFE (R96). -/
def listingAddresses : List Nat := (List.range ((Config.memSize - Config.progBase) / 2)).map fun k => Config.progBase + 2 * k

/-- The listing of a machine's memory (R96). -/
def listing (s : State) : List (List Char) := listingAddresses.map (listingLine s)

end Sys2Proof.Machine
end

