-- ==== Sys2Proof/Tests/Slice0.lean ====
section
/-! SUPPORT. Tests: the well-formedness smoke, words written out from the spec's encodings, one step per test with the
results of spec/95_test_vectors.md (its name T-… in the docstring), and a witness for every statement with hypotheses. -/

namespace Sys2Proof.Tests

open Sys2Proof.Machine Sys2Proof.Safety

/-! ### Helpers -/

/-- The reset state with some registers set. -/
def withRegs (regs : List (Reg × Byte)) : State := regs.foldl (fun s r => s.setV r.1 r.2) State.reset

/-- The same with bytes stored from an address on, which `I` holds. -/
def withBytes (i : Nat) (bytes : List Byte) (s : State) : State :=
  { s with i := BitVec.ofNat 16 i, mem := Memory.writeList s.mem i bytes }

/-- The state with a word at its `pc`. -/
def fetching (w : Word) (s : State) : State := placeWord w s

/-- The step answers a next state, and it passes the check. -/
def stepGives (s : State) (check : State → Bool) : Bool :=
  match step s with
  | .next t => check t
  | _ => false

/-! ### Well-formedness: each check refuses an ill-formed term -/

theorem test_wf_refuses_sys_cls_word : (Instr.sys 0x0E0).wf = false := by decide
theorem test_wf_refuses_sys_ret_word : (Instr.sys 0x0EE).wf = false := by decide
theorem test_wf_accepts_the_other_sys : (Instr.sys 0x000).wf = true ∧ (Instr.sys 0x0E1).wf = true := by decide

/-! ### Decoding: the example words of 30_encoding.md R94, written out by R85's patterns -/

theorem test_decode_flow :
    decodeWord 0b0000000100100011 = .ok (.sys 0x123) ∧ decodeWord 0b0000000011101110 = .ok .ret ∧
    decodeWord 0b0001001000110100 = .ok (.jp 0x234) ∧ decodeWord 0b0010101010111100 = .ok (.call 0xABC) ∧
    decodeWord 0b1011001100000000 = .ok (.jpV0 0x300) := by decide

theorem test_decode_skips :
    decodeWord 0b0011101000000101 = .ok (.seImm 10 0x05) ∧ decodeWord 0b0100101000000101 = .ok (.sneImm 10 0x05) ∧
    decodeWord 0b0101000100100000 = .ok (.seReg 1 2) ∧ decodeWord 0b1001000100100000 = .ok (.sneReg 1 2) := by decide

theorem test_decode_loads_and_alu :
    decodeWord 0b0110000000000101 = .ok (.ldImm 0 0x05) ∧ decodeWord 0b0111000000000001 = .ok (.addImm 0 0x01) ∧
    decodeWord 0b1000000100100000 = .ok (.ldReg 1 2) ∧ decodeWord 0b1000000100100001 = .ok (.orReg 1 2) ∧
    decodeWord 0b1000000100100010 = .ok (.andReg 1 2) ∧ decodeWord 0b1000000100100011 = .ok (.xorReg 1 2) ∧
    decodeWord 0b1000000100100100 = .ok (.addReg 1 2) ∧ decodeWord 0b1000000100100101 = .ok (.sub 1 2) ∧
    decodeWord 0b1000000100100110 = .ok (.shr 1 2) ∧ decodeWord 0b1000000100100111 = .ok (.subn 1 2) ∧
    decodeWord 0b1000000100101110 = .ok (.shl 1 2) ∧ decodeWord 0b1100000100001111 = .ok (.rnd 1 0x0F) := by decide

theorem test_decode_index_and_memory :
    decodeWord 0b1010001100000000 = .ok (.ldI 0x300) ∧ decodeWord 0b1111001100011110 = .ok (.addI 3) ∧
    decodeWord 0b1111001100101001 = .ok (.ldF 3) ∧ decodeWord 0b1111001100110011 = .ok (.ldB 3) ∧
    decodeWord 0b1111001101010101 = .ok (.stRegs 3) ∧ decodeWord 0b1111001101100101 = .ok (.ldRegs 3) := by decide

theorem test_decode_display :
    decodeWord 0b0000000011100000 = .ok .cls ∧ decodeWord 0b1101000100100101 = .ok (.drw 1 2 5) := by decide

theorem test_decode_input_and_timers :
    decodeWord 0b1110001110011110 = .ok (.skp 3) ∧ decodeWord 0b1110001110100001 = .ok (.sknp 3) ∧
    decodeWord 0b1111001100000111 = .ok (.ldVxDt 3) ∧ decodeWord 0b1111001100001010 = .ok (.ldVxK 3) ∧
    decodeWord 0b1111001100010101 = .ok (.ldDtVx 3) ∧ decodeWord 0b1111001100011000 = .ok (.ldStVx 3) := by decide

/-- R90, T-FLOW-19 to T-FLOW-25. -/
theorem test_decode_illegal :
    decodeWord 0xE000 = .error (.unknownOpcode 0xE000) ∧ decodeWord 0x5121 = .error (.unknownOpcode 0x5121) ∧
    decodeWord 0x8128 = .error (.unknownOpcode 0x8128) ∧ decodeWord 0x800F = .error (.unknownOpcode 0x800F) ∧
    decodeWord 0x9001 = .error (.unknownOpcode 0x9001) ∧ decodeWord 0xF0FF = .error (.unknownOpcode 0xF0FF) := by decide

/-- A list shorter than a word is refused by its own name. -/
theorem test_decode_truncated : decode [0x12] = .error .truncated ∧ decode [] = .error .truncated := by decide

theorem test_decodeTableWord : decodeTableWord 16 0x8126 = some (.shr 1 2) ∧ decodeTableWord 16 0xE000 = none := by decide

/-! ### Control transfer -/

/-- T-FLOW-2 -/
theorem test_sys : stepGives (fetching 0x0000 State.reset) (fun t => t.pc == 0x202 && t.fault == ⟨.none, 0⟩) = true := by
  decide

/-- T-FLOW-4 -/
theorem test_jp : stepGives (fetching 0x1234 State.reset) (fun t => t.pc == 0x234) = true := by decide

/-- T-FLOW-7 -/
theorem test_call : stepGives (fetching 0x2300 State.reset)
    (fun t => t.pc == 0x300 && t.sp == 1 && t.stack[0] == 0x202) = true := by decide

/-- T-FLOW-8 -/
theorem test_call_full : stepGives (fetching 0x2300 { State.reset with sp := 16, stack := Vector.replicate 16 0x202 })
    (fun t => t.pc == 0x202 && t.sp == 16 && t.fault == ⟨.stackOverflow, 0x202⟩) = true := by decide

/-- T-FLOW-10 -/
theorem test_ret : stepGives (fetching 0x00EE { State.reset with pc := 0x300, sp := 1, stack := Vector.replicate 16 0x204 })
    (fun t => t.pc == 0x204 && t.sp == 0) = true := by decide

/-- T-FLOW-11 -/
theorem test_ret_empty : stepGives (fetching 0x00EE State.reset)
    (fun t => t.pc == 0x202 && t.fault == ⟨.stackUnderflow, 0⟩) = true := by decide

/-- T-FLOW-14 (its first cycle) -/
theorem test_jpV0_is_a_plain_sum : stepGives (fetching 0xBFFF (withRegs [(0, 0xFF)])) (fun t => t.pc == 0x10FE) = true := by
  decide

/-- T-FLOW-16 -/
theorem test_jpV0_uses_v0 : stepGives (fetching 0xB210 (withRegs [(0, 0x01), (2, 0x09)])) (fun t => t.pc == 0x211) = true := by
  decide

/-! ### Skips -/

/-- T-SKIP-1 -/
theorem test_seImm_skips : stepGives (fetching 0x332A (withRegs [(3, 0x2A)])) (fun t => t.pc == 0x204) = true := by decide

/-- T-SKIP-2 -/
theorem test_seImm_does_not : stepGives (fetching 0x332A (withRegs [(3, 0x2B)])) (fun t => t.pc == 0x202) = true := by decide

/-- T-SKIP-3 -/
theorem test_sneImm_does_not : stepGives (fetching 0x432A (withRegs [(3, 0x2A)])) (fun t => t.pc == 0x202) = true := by decide

/-- T-SKIP-5 -/
theorem test_seReg_skips : stepGives (fetching 0x5120 (withRegs [(1, 7), (2, 7)])) (fun t => t.pc == 0x204) = true := by decide

/-- T-SKIP-8 -/
theorem test_sneReg_skips : stepGives (fetching 0x9120 (withRegs [(1, 7), (2, 8)])) (fun t => t.pc == 0x204) = true := by decide

/-! ### Loads and arithmetic -/

/-- T-ALU-2 -/
theorem test_ldImm : stepGives (fetching 0x6FAB (withRegs [(15, 1)])) (fun t => t.getV 15 == 0xAB) = true := by decide

/-- T-ALU-3 -/
theorem test_addImm_wraps : stepGives (fetching 0x7001 (withRegs [(0, 0xFF), (15, 7)]))
    (fun t => t.getV 0 == 0 && t.getV 15 == 7) = true := by decide

/-- T-ALU-6 -/
theorem test_ldReg : stepGives (fetching 0x8120 (withRegs [(2, 0x9C)])) (fun t => t.getV 1 == 0x9C) = true := by decide

/-- T-ALU-7 -/
theorem test_orReg : stepGives (fetching 0x8121 (withRegs [(1, 0xF0), (2, 0x3C), (15, 1)]))
    (fun t => t.getV 1 == 0xFC && t.getV 15 == 1) = true := by decide

/-- T-ALU-8 -/
theorem test_andReg : stepGives (fetching 0x8122 (withRegs [(1, 0xF0), (2, 0x3C), (15, 1)]))
    (fun t => t.getV 1 == 0x30 && t.getV 15 == 1) = true := by decide

/-- T-ALU-9 -/
theorem test_xorReg : stepGives (fetching 0x8123 (withRegs [(1, 0xF0), (2, 0x3C), (15, 1)]))
    (fun t => t.getV 1 == 0xCC && t.getV 15 == 1) = true := by decide

/-- T-ALU-11 -/
theorem test_addReg_carry : stepGives (fetching 0x8124 (withRegs [(1, 0xC8), (2, 0x64)]))
    (fun t => t.getV 1 == 0x2C && t.getV 15 == 1) = true := by decide

/-- T-ALU-16 -/
theorem test_addReg_into_vF : stepGives (fetching 0x8F24 (withRegs [(2, 0x20), (15, 0xF0)]))
    (fun t => t.getV 15 == 0x10) = true := by decide

/-- T-ALU-21 -/
theorem test_sub_equal_clears_the_flag : stepGives (fetching 0x8125 (withRegs [(1, 7), (2, 7), (15, 1)]))
    (fun t => t.getV 1 == 0 && t.getV 15 == 0) = true := by decide

/-- T-ALU-26 -/
theorem test_sub_of_vF : stepGives (fetching 0x81F5 (withRegs [(1, 9), (15, 5)]))
    (fun t => t.getV 1 == 8 && t.getV 15 == 1) = true := by decide

/-- T-ALU-29 -/
theorem test_shr_ignores_vy : stepGives (fetching 0x8126 (withRegs [(1, 0x05), (2, 0xAA)]))
    (fun t => t.getV 1 == 0x02 && t.getV 15 == 1 && t.getV 2 == 0xAA) = true := by decide

/-- T-ALU-33 -/
theorem test_shr_of_vF : stepGives (fetching 0x8F06 (withRegs [(15, 0xFF)])) (fun t => t.getV 15 == 0) = true := by decide

/-- T-ALU-35 -/
theorem test_subn_borrows : stepGives (fetching 0x8127 (withRegs [(1, 0x0A), (2, 0x03), (15, 1)]))
    (fun t => t.getV 1 == 0xF9 && t.getV 15 == 0) = true := by decide

/-- T-ALU-38 -/
theorem test_subn_of_vF : stepGives (fetching 0x81F7 (withRegs [(1, 3), (15, 9)]))
    (fun t => t.getV 1 == 0xFE && t.getV 15 == 1) = true := by decide

/-- T-ALU-40 -/
theorem test_shl_ignores_vy : stepGives (fetching 0x812E (withRegs [(1, 0x81), (2, 0xAA)]))
    (fun t => t.getV 1 == 0x02 && t.getV 15 == 1 && t.getV 2 == 0xAA) = true := by decide

/-- T-ALU-44 -/
theorem test_shl_of_vF : stepGives (fetching 0x8F0E (withRegs [(15, 0x80)])) (fun t => t.getV 15 == 2) = true := by decide

/-- T-ALU-47: `kk` = 0 gives 0 whatever the free byte is. -/
theorem test_rnd_masked_to_nothing : ∃ t, exec (.rnd 1 0) (withRegs [(1, 0x55)]) = .next t ∧ t.getV 1 = 0 :=
  ⟨_, rfl, by simp⟩

/-! ### Index register and memory -/

/-- T-MEM-2 -/
theorem test_ldI : stepGives (fetching 0xAFFF State.reset) (fun t => t.i == 0xFFF) = true := by decide

/-- T-MEM-4 -/
theorem test_addI_wraps : stepGives (fetching 0xF21E { withRegs [(2, 1)] with i := 0xFFF })
    (fun t => t.i == 0 && t.getV 15 == 0) = true := by decide

/-- T-MEM-7 -/
theorem test_ldF_does_not_mask : stepGives (fetching 0xF329 (withRegs [(3, 0x10)])) (fun t => t.i == 0x050) = true := by decide

/-- T-MEM-9 -/
theorem test_ldB : stepGives (fetching 0xF033 { withRegs [(0, 0xEA)] with i := 0x300 })
    (fun t => t.readByte 0x300 == 2 && t.readByte 0x301 == 3 && t.readByte 0x302 == 4 && t.i == 0x300) = true := by decide

/-- T-MEM-13 -/
theorem test_ldB_faults_after_two : stepGives (fetching 0xF033 { withRegs [(0, 0xEA)] with i := 0xFFE })
    (fun t => t.readByte 0xFFE == 2 && t.readByte 0xFFF == 3 && t.fault == ⟨.outOfBoundsMemoryAccess, 0x1000⟩) = true := by
  decide

/-- T-MEM-16 -/
theorem test_stRegs : stepGives (fetching 0xF255 { withRegs [(0, 0x11), (1, 0x22), (2, 0x33), (3, 0x44)] with i := 0x400 })
    (fun t => t.readByte 0x400 == 0x11 && t.readByte 0x402 == 0x33 && t.readByte 0x403 == 0) = true := by decide

/-- The case of T-MEM-19 with three registers: the bytes below 0x1000 are written, then the fault. -/
theorem test_stRegs_faults : stepGives (fetching 0xF255 { withRegs [(0, 0xA0), (1, 0xA1)] with i := 0xFFE })
    (fun t => t.readByte 0xFFE == 0xA0 && t.readByte 0xFFF == 0xA1 && t.fault == ⟨.outOfBoundsMemoryAccess, 0x1000⟩) = true := by
  decide

/-- T-MEM-20 -/
theorem test_ldRegs : stepGives (fetching 0xF265 (withBytes 0x300 [2, 3, 4, 5] State.reset))
    (fun t => t.getV 0 == 2 && t.getV 1 == 3 && t.getV 2 == 4 && t.getV 3 == 0 && t.i == 0x300) = true := by decide

/-- T-MEM-22 -/
theorem test_ldRegs_faults : stepGives (fetching 0xF365 (withBytes 0xFFE [0x5A, 0xA5] (withRegs [(2, 0x77), (3, 0x88)])))
    (fun t => t.getV 0 == 0x5A && t.getV 1 == 0xA5 && t.getV 2 == 0x77 && t.getV 3 == 0x88 &&
      t.fault == ⟨.outOfBoundsMemoryAccess, 0x1000⟩) = true := by decide

/-! ### Display -/

/-- T-DRW-14 -/
theorem test_cls : stepGives (fetching 0x00E0 { State.reset with fb := Vector.replicate 32 (BitVec.allOnes 64) })
    (fun t => t.fb == Vector.replicate 32 0 && t.pc == 0x202) = true := by decide

/-- T-DRW-2: crosses the right edge. -/
theorem test_drw_wraps : stepGives (fetching 0xD011 (withBytes 0x300 [0xFF] (withRegs [(0, 0x3E), (1, 0x1E)])))
    (fun t => t.pixel 30 62 && t.pixel 30 63 && t.pixel 30 0 && t.pixel 30 5 && !t.pixel 30 6 && t.getV 15 == 0) = true := by
  decide

/-- T-DRW-10: `x` = 15, the flag moves the second row. -/
theorem test_drw_at_vF : stepGives (fetching 0xDF12 (withBytes 0x300 [0x80, 0x80] (State.reset.flipPixel 0 0)))
    (fun t => !t.pixel 0 0 && t.pixel 1 1 && !t.pixel 1 0 && t.getV 15 == 1) = true := by decide

/-! ### Keys and timers -/

/-- T-KEY-7 -/
theorem test_skp_highest : stepGives (fetching 0xE39E { withRegs [(3, 0x0F)] with keys := 0x8000 }) (fun t => t.pc == 0x204) = true := by
  decide

/-- T-KEY-5 -/
theorem test_skp_out_of_range : stepGives (fetching 0xE39E { withRegs [(3, 0x10)] with keys := 0x0001 })
    (fun t => t.pc == 0x202 && t.fault == ⟨.keyIndexOutOfRange, 0x10⟩) = true := by decide

/-- T-KEY-4 -/
theorem test_sknp_pressed : stepGives (fetching 0xE3A1 { withRegs [(3, 0x07)] with keys := 0x0080 }) (fun t => t.pc == 0x202) = true := by
  decide

/-- T-KEY-6 -/
theorem test_sknp_out_of_range : stepGives (fetching 0xE3A1 (withRegs [(3, 0xFF)]))
    (fun t => t.fault == ⟨.keyIndexOutOfRange, 0xFF⟩) = true := by decide

/-- T-KEY-8 (one cycle of it) -/
theorem test_ldVxK_waits : stepGives (fetching 0xF50A (withRegs [(5, 0x77)])) (fun t => t == fetching 0xF50A (withRegs [(5, 0x77)])) = true := by
  decide

/-- The last cycle of T-KEY-9: keys 3 and 11 are down. -/
theorem test_ldVxK_lowest : stepGives (fetching 0xF50A { withRegs [(5, 0x77)] with keys := 0x0808 })
    (fun t => t.getV 5 == 3 && t.pc == 0x202) = true := by decide

/-- T-KEY-14 -/
theorem test_ldVxDt : stepGives (fetching 0xF207 { State.reset with dt := 0x3C }) (fun t => t.getV 2 == 0x3C) = true := by decide

/-- T-KEY-15 -/
theorem test_ldDtVx : stepGives (fetching 0xF215 (withRegs [(2, 0x3C)])) (fun t => t.dt == 0x3C && t.st == 0) = true := by decide

/-- T-KEY-16 -/
theorem test_ldStVx : stepGives (fetching 0xF218 (withRegs [(2, 0x05)])) (fun t => t.st == 5 && t.dt == 0 && t.sound) = true := by
  decide

/-! ### Cycle and host events -/

/-- T-FLOW-19 -/
theorem test_unknown_opcode : stepGives (fetching 0xE000 State.reset)
    (fun t => t.pc == 0x202 && t.fault == ⟨.unknownOpcode, 0xE000⟩) = true := by decide

/-- T-FLOW-6 (its second cycle): the first byte is read, the second faults, `pc` stays. -/
theorem test_fetch_faults_at_the_top : stepGives { State.reset with pc := 0xFFF }
    (fun t => t.pc == 0xFFF && t.fault == ⟨.outOfBoundsMemoryAccess, 0x1000⟩) = true := by decide

/-- T-KEY-20 -/
theorem test_tick_stops_at_zero : stepGives { State.reset with dt := 1, sched := [.tick] } (fun t => t.dt == 0 && t.st == 0) = true := by
  decide

/-- T-KEY-23 (its third event) -/
theorem test_setKey : stepGives { State.reset with keys := 0x0008, sched := [.setKey 5 true] } (fun t => t.keys == 0x0028) = true := by
  decide

/-- T-HOST-4 -/
theorem test_load : stepGives { withBytes 0x203 [0x55] State.reset with sched := [.load [0x60, 0x05, 0x70]] }
    (fun t => t.readByte 0x200 == 0x60 && t.readByte 0x202 == 0x70 && t.readByte 0x203 == 0x55 && t.pc == 0x200) = true := by
  decide

/-- T-HOST-8 (its first event) -/
theorem test_reset : stepGives { State.reset with pc := 0x202, fault := ⟨.stackUnderflow, 0⟩, sched := [.reset] }
    (fun t => t == State.reset) = true := by decide

/-- The glyph of `A` starts at 0x032 (95_test_vectors.md, P3, with the default font). -/
theorem test_font : (List.range 5).map (fun k => State.reset.readByte (0x032 + k)) = [0xF0, 0x90, 0xF0, 0x90, 0x90] := by decide

theorem test_withFetchWord : stepGives (State.reset.withFetchWord 16 0x6005) (fun t => t.getV 0 == 5 && t.pc == 0x202) = true := by
  decide

/-- Example S8 of 95_test_vectors.md, and R94's text of `Dxyn`. -/
theorem test_disassemble : disassemble 0x00E0 = "CLS".toList ∧ disassemble 0x1234 = "JP 234".toList ∧
    disassemble 0xE000 = "UNKNOWN E000".toList ∧ disassemble 0xD005 = "DRW V0,V0,5".toList := by decide

/-! ### Witnesses: for each statement with hypotheses, states and operands that meet all of them together -/

/-- A state away from reset: some registers, one live stack entry, a lit pixel, a byte stored, timers running. -/
def busy : State :=
  { withBytes 0x300 [0x81, 0x7E] (withRegs [(0, 0x12), (1, 0x0F), (2, 0x10), (15, 0xFF)]) with
    sp := 1, stack := Vector.replicate 16 0x202, fb := Vector.replicate 32 5, dt := 3, st := 2 }

/-- The busy state halted by an unknown opcode. -/
def stopped : State := { busy with fault := ⟨.unknownOpcode, 0xE000⟩ }

theorem test_hyp_DecodeOfEncode : (Instr.drw 15 0 15).wf = true ∧ (Instr.sys 0xFFF).wf = true := by decide

theorem test_hyp_EncodeOfDecode : decodeWord 0x0000 = .ok (.sys 0) ∧ decodeWord 0xFF65 = .ok (.ldRegs 15) := by decide

theorem test_hyp_StepRunsDecodedInstruction : ∃ s i, Runs s ∧ CycleNext s ∧ s.pc.toNat = 4094 ∧ i.wf = true ∧
    decodeWord (wordAt s s.pc.toNat) = .ok i :=
  ⟨fetching 0xD015 { busy with pc := 0xFFE, sched := [.cycle, .tick] }, .drw 0 1 5, by decide⟩

theorem test_hyp_CycleRunsItsFourStages_halted : ∃ s, CycleNext s ∧ s.fault.cause ≠ .none := ⟨stopped, by decide⟩
theorem test_hyp_CycleRunsItsFourStages_above : ∃ s, CycleNext s ∧ s.fault.cause = .none ∧ s.pc.toNat = 4096 :=
  ⟨{ busy with pc := 0x1000 }, by decide⟩
theorem test_hyp_CycleRunsItsFourStages_top : ∃ s, CycleNext s ∧ s.fault.cause = .none ∧ s.pc.toNat = 4095 :=
  ⟨{ busy with pc := 0xFFF }, by decide⟩
theorem test_hyp_CycleRunsItsFourStages_runs : ∃ s, CycleNext s ∧ s.fault.cause = .none ∧ s.pc.toNat = 4094 ∧
    decodeWord (wordAt s s.pc.toNat) = .ok .cls :=
  ⟨fetching 0x00E0 { busy with pc := 0xFFE, sched := [.cycle] }, by decide⟩
theorem test_hyp_CycleRunsItsFourStages_unknown : ∃ s, CycleNext s ∧ s.fault.cause = .none ∧ s.pc.toNat = 512 ∧
    decodeWord (wordAt s s.pc.toNat) = .error (.unknownOpcode 0xE000) :=
  ⟨fetching 0xE000 busy, by decide⟩

theorem test_hyp_SelfJumpIsAFixedPoint : ∃ (s : State) (nnn : Addr), Runs s ∧ s.sched = [] ∧ s.pc.toNat ≤ 4094 ∧
    nnn.toNat = s.pc.toNat ∧ wordAt s s.pc.toNat = patNnn 0x1 nnn :=
  ⟨fetching 0x1200 busy, 0x200, by decide⟩

/-- Both outcomes of `EveryStepAnswers` occur: a next state, and the one refusal. -/
theorem test_hyp_EveryStepAnswers : (∃ t, step busy = .next t) ∧
    ∃ k pressed rest, { busy with sched := [.setKey 16 true] }.sched = .setKey k pressed :: rest ∧ 15 < k :=
  ⟨⟨_, rfl⟩, 16, true, [], rfl, by decide⟩

theorem test_hyp_OnlyResetLeavesTheHalt : ∃ s t, ¬ Runs s ∧ step s = .next t ∧ s.sched.head? ≠ some .reset :=
  ⟨{ stopped with sched := [.tick] }, _, by decide, rfl, by decide⟩

theorem test_hyp_SysDoesNothing : (0x0E1 : Addr) ≠ 0x0E0 ∧ (0x0E1 : Addr) ≠ 0x0EE := by decide

theorem test_hyp_RetPopsOrFaults : (∃ s : State, s.sp.val = 0) ∧ (∃ s : State, 0 < s.sp.val ∧ s.sp.val = 1) ∧
    ∃ s : State, 0 < s.sp.val ∧ s.sp.val = 16 :=
  ⟨⟨State.reset, by decide⟩, ⟨busy, by decide⟩, ⟨{ busy with sp := 16 }, by decide⟩⟩

theorem test_hyp_CallPushesOrFaults : (∃ s : State, s.sp.val < 16 ∧ s.sp.val = 0) ∧
    (∃ s : State, s.sp.val < 16 ∧ s.sp.val = 15) ∧ ∃ s : State, s.sp.val = 16 :=
  ⟨⟨State.reset, by decide⟩, ⟨{ busy with sp := 15 }, by decide⟩, ⟨{ busy with sp := 16 }, by decide⟩⟩

theorem test_hyp_RetReturnsAfterItsCall : ∃ s t u : State, s.sp.val < 16 ∧ exec (.call 0x300) s = .next t ∧ u.sp = t.sp ∧
    u.pc ≠ t.pc ∧ ∀ (k : Nat) (h : k < 16), k < t.sp.val → u.stack[k]'h = t.stack[k]'h :=
  ⟨busy, { busy with pc := 0x300, sp := 2, stack := busy.stack.set 1 0x200 },
    { busy with pc := 0x310, sp := 2, stack := busy.stack.set 1 0x200 }, by decide, rfl, rfl, by decide, fun _ _ _ => rfl⟩

/-- The fetch clause at 0xFFF and at the largest sum. -/
theorem test_hyp_JumpsSetPc : (∃ t, exec (.jp 0xFFF) busy = .next t ∧ Runs t ∧ CycleNext t ∧ t.pc.toNat = 4095) ∧
    ∃ t, exec (.jpV0 0xFFF) (withRegs [(0, 0xFF)]) = .next t ∧ Runs t ∧ CycleNext t ∧ t.pc.toNat = 0x10FE :=
  ⟨⟨_, rfl, by decide⟩, ⟨_, rfl, by decide⟩⟩

theorem test_hyp_SkipsOnRegister : (0x1 : Nibble) ≠ 0 ∧ (0xF : Nibble) ≠ 0 := by decide

theorem test_hyp_AddWithCarry : (14 : Reg) ≠ 15 ∧ ¬ (0xFF : Byte).toNat + (0x00 : Byte).toNat > 255 ∧
    (0xFF : Byte).toNat + (0x01 : Byte).toNat > 255 := by decide

/-- `x` = 15 and `x` other, `y` = 15 and `y` other, operands equal, greater and less all occur together. -/
theorem test_hyp_SubtractWithFlag : ∃ (s : State) (f g h : Byte), f = (if (s.getV 1).toNat > (s.getV 1).toNat then 1 else 0) ∧
    g = (if (s.getV 15).toNat > (s.getV 2).toNat then 1 else 0) ∧ h = (if (s.getV 2).toNat > (s.getV 15).toNat then 1 else 0) ∧
    f = 0 ∧ g = 1 ∧ h = 0 :=
  ⟨busy, 0, 1, 0, by decide⟩

theorem test_hyp_SubtractReversedWithFlag : ∃ (s : State) (f g : Byte),
    f = (if (s.getV 1).toNat > (s.getV 2).toNat then 1 else 0) ∧ g = (if (s.getV 15).toNat > (s.getV 1).toNat then 1 else 0) ∧
    f = 0 ∧ g = 1 :=
  ⟨busy, 0, 1, by decide⟩

theorem test_hyp_ShiftsWithFlag : (14 : Reg) ≠ 15 ∧ (15 : Reg) = 15 := by decide

theorem test_hyp_RegisterFifteenForms : ∃ (x y : Reg) (s : State), x ≠ 15 ∧ y ≠ 15 ∧ (s.getV x).toNat = 0x0F ∧
    (s.getV y).toNat = 0x10 ∧ (s.getV 15).toNat = 0xFF :=
  ⟨1, 2, busy, by decide⟩

theorem test_hyp_RandomIsMasked : (0x7F : Byte).getLsbD 7 = false ∧ (0x00 : Byte).getLsbD 0 = false := by decide

theorem test_hyp_MemoryPrimitives : ∃ s : State, Memory.wf s.mem = true ∧ s.mem ≠ [] ∧ 4095 < 4096 ∧ 4095 ≤ 4095 := ⟨busy, by decide⟩

theorem test_hyp_BcdStoresDigitsOrFaults : ∃ (x : Reg) (s u : State) (digit : Nat → Nat), Memory.wf s.mem = true ∧ Memory.wf u.mem = true ∧
    s.getV x = u.getV x ∧ digit 0 = (s.getV x).toNat / 100 ∧ digit 1 = (s.getV x).toNat / 10 % 10 ∧
    digit 2 = (s.getV x).toNat % 10 ∧ s.i.toNat + 2 = 4095 ∧ u.i.toNat + 2 = 4096 :=
  ⟨15, { busy with i := 0xFFD }, { busy with i := 0xFFE }, fun k => if k = 0 then 2 else 5, by decide⟩

theorem test_hyp_StoreRegistersOrFault : ∃ (x : Reg) (s u : State), Memory.wf s.mem = true ∧ Memory.wf u.mem = true ∧
    s.i.toNat + x.val = 4095 ∧ u.i.toNat + x.val = 4096 :=
  ⟨15, { busy with i := 0xFF0 }, { busy with i := 0xFF1 }, by decide⟩

theorem test_hyp_LoadRegistersOrFault : ∃ (x : Reg) (s u : State), s.i.toNat + x.val = 4095 ∧ u.i.toNat + x.val = 4096 :=
  ⟨0, { busy with i := 0xFFF }, { busy with i := 0x1000 }, by decide⟩

/-- T-MEM-23: V0 and V1 hold 6A 55, `LD VA,55`. -/
theorem test_hyp_StoreIsSeenByTheNextFetch : ∃ (x : Reg) (s t : State) (j : Instr), Memory.wf s.mem = true ∧ Runs s ∧
    CycleNext s ∧ 1 ≤ x.val ∧ s.i = s.pc ∧ s.i.toNat + x.val ≤ 4095 ∧ exec (.stRegs x) s = .next t ∧
    decodeWord (BitVec.ofNat 16 ((s.getV 0).toNat * 256 + (s.getV 1).toNat)) = .ok j :=
  ⟨1, { withRegs [(0, 0x6A), (1, 0x55)] with i := 0x202, pc := 0x202 }, _, .ldImm 10 0x55, by decide, by decide, by decide,
    by decide, by decide, by decide, rfl, by decide⟩

theorem test_hyp_DrawIsTheBlitOfItsRows : ∃ (n : Nibble) (s u v : State), (n ≠ 0 ∧ s.i.toNat + n.toNat = 4096) ∧
    (n ≠ 0 ∧ 4096 < u.i.toNat + n.toNat ∧ u.i.toNat = 4095) ∧ ((0 : Nibble) = 0 ∧ v.i.toNat = 4095) :=
  ⟨2, { busy with i := 0xFFE }, { busy with i := 0xFFF }, { busy with i := 0xFFF }, by decide⟩

/-- A pixel under a set bit that is lit, and one beside it that no set bit covers. -/
theorem test_hyp_DrawFlipsExactlyTheCoveredPixels : ∃ (x y : Reg) (n : Nibble) (s : State), x ≠ 15 ∧ y ≠ 15 ∧
    s.i.toNat + n.toNat ≤ 4096 ∧ (∃ r c, covers x y n.toNat s r c ∧ s.pixel r c = true) ∧ ¬ covers x y n.toNat s 0 0 :=
  ⟨0, 1, 2, { busy with fb := Vector.replicate 32 (BitVec.allOnes 64) }, by decide, by decide, by decide,
    ⟨15, 18, ⟨0, 0, by decide⟩, by decide⟩, fun ⟨_, _, h1, _, _, h2, _⟩ => by
      simp only [show ((2 : Nibble).toNat) = 2 from rfl,
        show (State.getV { busy with fb := Vector.replicate 32 (BitVec.allOnes 64) } 1).toNat = 15 from rfl] at h1 h2
      have h2 : 0 = (15 + _) % 32 := h2
      omega⟩

theorem test_hyp_DrawTwiceRestores : ∃ (x y : Reg) (n : Nibble) (s t : State), x ≠ 15 ∧ y ≠ 15 ∧ s.i.toNat + n.toNat ≤ 4096 ∧
    exec (.drw x y n) s = .next t :=
  ⟨0, 1, 2, busy, _, by decide, by decide, by decide, rfl⟩

theorem test_hyp_KeySkipsOrFault : (busy.getV 1).toNat = 15 ∧ 15 < (busy.getV 2).toNat ∧ (busy.getV 2).toNat = 16 := by decide

theorem test_hyp_KeyWaitLoadsTheLeastKey : (∃ s : State, s.keyDown 15 = true ∧ ∀ j, j < 15 → s.keyDown j = false) ∧
    (∃ s : State, s.keyDown 0 = true ∧ s.keyDown 15 = true) ∧ ∃ s : State, ∀ k, k < 16 → s.keyDown k = false :=
  ⟨⟨{ busy with keys := 0x8000 }, by decide⟩, ⟨{ busy with keys := 0x8001 }, by decide⟩, ⟨busy, by decide⟩⟩

theorem test_hyp_KeyWaitCycleIsIdle : ∃ (x : Reg) (s : State), Runs s ∧ s.sched = [] ∧ s.pc.toNat ≤ 4094 ∧
    wordAt s s.pc.toNat = patXkk 0xF x 0x0A ∧ s.keys = 0 :=
  ⟨5, fetching 0xF50A busy, by decide⟩

theorem test_hyp_PushAndPop : (State.reset.sp.val = 0 ∧ State.reset.sp.val < 16) ∧ (0 < busy.sp.val ∧ busy.sp.val < 16) ∧
    (0 < ({ busy with sp := 16 } : State).sp.val ∧ ({ busy with sp := 16 } : State).sp.val = 16) := by decide

/-- An instruction that raises, and one that does not. -/
theorem test_hyp_WhoRaisesWhat : (∃ i s t f, exec i s = .next t ∧ raises s f i) ∧ ∃ i s t, exec i s = .next t ∧ ¬ ∃ f, raises s f i :=
  ⟨⟨.skp 2, busy, _, ⟨.keyIndexOutOfRange, 16⟩, rfl, by constructor <;> decide⟩,
    ⟨.ret, busy, _, rfl, fun ⟨_, h, _⟩ => absurd h (by decide)⟩⟩

theorem test_hyp_ResetLeavesTheResetValues : ∃ (s : State) (rest : List Event), s.sched = .reset :: rest ∧ s ≠ State.reset :=
  ⟨{ stopped with sched := [.reset, .tick] }, [.tick], by decide⟩

theorem test_hyp_LoadWritesTheRomOrRefuses : ∃ (rom big : List Byte) (s u : State), Memory.wf s.mem = true ∧
    s.sched = [.load rom] ∧ rom.length = 3584 ∧ Memory.wf u.mem = true ∧ u.sched = [.load big] ∧ big.length = 3585 :=
  ⟨List.replicate 3584 1, List.replicate 3585 1, { busy with sched := [.load (List.replicate 3584 1)] },
    { busy with sched := [.load (List.replicate 3585 1)] }, by decide, rfl, List.length_replicate, by decide, rfl,
    List.length_replicate⟩

theorem test_hyp_TickCountsBothTimersDown : ({ busy with sched := [.tick] } : State).sched = .tick :: [] := rfl

theorem test_hyp_SetKeyWritesOneBit : 15 < 16 ∧ ({ busy with sched := [.setKey 15 true, .cycle] } : State).sched =
    .setKey 15 true :: [.cycle] := by decide

theorem test_hyp_HostReads : ({ busy with sched := [.readFb] } : State).sched = .readFb :: [] := rfl

theorem test_hyp_FrameOfEveryInstruction : ∃ (i : Instr) (s t : State), Memory.wf s.mem = true ∧ exec i s = .next t :=
  ⟨.ldB 15, busy, _, by decide, rfl⟩

theorem test_hyp_EveryStepKeepsInv : ∃ s t, Inv s ∧ 0 < s.sp.val ∧ step s = .next t :=
  ⟨busy, _, ⟨by decide, by decide, by decide, fun k h _ => by simp [busy], rfl⟩, by decide, rfl⟩

theorem test_hyp_DeadStackEntriesAreUnobservable : ∃ s s' t, SameButDeadStack s s' ∧ s ≠ s' ∧ step s = .next t :=
  ⟨busy, { busy with stack := busy.stack.set 1 0x999 }, _, ⟨rfl, fun k h hk => by
    have : k = 0 := Nat.lt_one_iff.mp hk
    subst this; rfl⟩, by decide, rfl⟩

theorem test_hyp_NoInstructionReadsST : ∃ (i : Instr) (s t : State), exec i s = .next t ∧ writesSt i = false :=
  ⟨.ldVxDt 0, busy, _, rfl, rfl⟩

theorem test_hyp_OnlyDrawReadsTheFramebuffer : ∃ (i : Instr) (s t : State), writesFb i = false ∧ exec i s = .next t :=
  ⟨.ldRegs 3, busy, _, rfl, rfl⟩

end Sys2Proof.Tests
end

section
/-! The call stack (10_state.md R31, R32): a pop undoes a push, and both check before they change anything. -/

namespace Sys2Proof.Proofs

open Sys2Proof.Machine

/-- A pop after a push that succeeds gives the pushed value back (R31, R32). `SP` is as it was before the push; the
entry keeps the pushed bits, so the stack vector is not the old one. -/
theorem pop_after_push {w : Word} {s t : State} (h : push w s = .ok t) :
    pop t = .ok (w, { s with stack := t.stack }) := by
  by_cases hlt : s.sp.val < Config.stackDepth
  · rw [push_of_lt w s hlt] at h
    cases h
    rw [pop_of_pos _ (Nat.succ_pos _)]
    simp
  · rw [push_full w s hlt] at h
    cases h

/-- Settles O40: one clause per branch of `push` and of `pop`, and `pop_after_push` where the two meet. -/
theorem pushAndPop : Obligations.PushAndPop := by
  intro w s
  refine ⟨fun hfull => ?_, fun hlt => ?_, fun hempty => ?_, fun hpos => ?_⟩
  · exact push_full w s (Nat.not_lt.mpr hfull.ge)
  · have hpush := push_of_lt w s hlt
    exact ⟨_, hpush, rfl, rfl, rfl, pop_after_push hpush⟩
  · exact pop_empty s (Nat.not_lt.mpr hempty.le)
  · exact ⟨_, pop_of_pos s hpos, Nat.sub_add_cancel hpos, rfl⟩

end Sys2Proof.Proofs
end

section
/-! Memory (20_memory.md R54, R55, R60): one access, and the `LOAD` of a ROM. -/

namespace Sys2Proof.Proofs

open Sys2Proof.Machine Sys2Proof.Safety

/-! ### One access (R54, R55) -/

/-- A write to a canonical memory changes the byte at its address and no other part of the state. -/
theorem onlyMem_write {s : State} (hwf : Memory.wf s.mem = true) (a : Nat) (b : Byte) :
    OnlyMem s { s with mem := Memory.write s.mem a b } [a] := by
  refine ⟨rfl, fun _ _ => rfl, fun c hc => ?_⟩
  have hne : c ≠ a := by simpa using hc
  exact (Memory.read_write hwf a b c).trans (if_neg hne)

/-- A write below 4096 that succeeds is what a read of its address then gives. -/
theorem memRead_after_write {s : State} (hwf : Memory.wf s.mem = true) {a : Nat} (b : Byte) (ha : a < Config.memSize) :
    memRead a { s with mem := Memory.write s.mem a b } = .ok b := by
  have hread : Memory.read (Memory.write s.mem a b) a = b := (Memory.read_write hwf a b a).trans (if_pos rfl)
  rw [memRead_of_lt _ ha, State.readByte, hread]

/-- Settles O27: an access is in bounds or it faults, and the write laws of a canonical memory say what it does. -/
theorem memoryPrimitives : Obligations.MemoryPrimitives := by
  intro a b s hwf
  refine ⟨fun habove => ?_, fun hbelow => ?_⟩
  · exact ⟨memRead_of_ge s habove, memWrite_of_ge b s habove⟩
  · have ha : a < Config.memSize := Nat.lt_succ_of_le hbelow
    exact ⟨memRead_of_lt s ha, _, memWrite_of_lt b s ha, memRead_after_write hwf b ha, onlyMem_write hwf a b,
      Memory.wf_write hwf b ha⟩

/-! ### Loading a ROM (R60) -/

/-- A step whose schedule lists an event applies that event to the state with it taken off. -/
theorem step_of_sched_cons {s : State} {e : Event} {rest : List Event} (h : s.sched = e :: rest) :
    step s = applyEvent e { s with sched := rest } := by
  rw [step, h]

theorem loadRom_of_le {rom : List Byte} (s : State) (h : rom.length ≤ Config.romMax) :
    loadRom rom s = some { s with mem := Memory.writeList s.mem Config.progBase rom } := if_neg (Nat.not_lt.mpr h)

theorem loadRom_of_gt {rom : List Byte} (s : State) (h : Config.romMax < rom.length) : loadRom rom s = none := if_pos h

/-- A ROM that fits is applied by writing it from `PROG_BASE`. -/
theorem applyEvent_load_of_le {rom : List Byte} (s : State) (h : rom.length ≤ Config.romMax) :
    applyEvent (.load rom) s = .next { s with mem := Memory.writeList s.mem Config.progBase rom } := by
  simp only [applyEvent, loadRom_of_le s h, Option.getD_some]

/-- A ROM that does not fit changes nothing. -/
theorem applyEvent_load_of_gt {rom : List Byte} (s : State) (h : Config.romMax < rom.length) :
    applyEvent (.load rom) s = .next s := by
  simp only [applyEvent, loadRom_of_gt s h, Option.getD_none]

theorem reply_load_of_le {rom : List Byte} (s : State) (h : rom.length ≤ Config.romMax) :
    reply (.load rom) s = .none := by
  simp [reply, loadRom_of_le s h]

theorem reply_load_of_gt {rom : List Byte} (s : State) (h : Config.romMax < rom.length) :
    reply (.load rom) s = .oversizeRom := by
  simp [reply, loadRom_of_gt s h]

/-- Consecutive writes put byte `j` of the list `j` addresses after the first. -/
theorem read_writeList_inside {m : Memory} (hwf : Memory.wf m = true) {bs : List Byte} {a : Nat}
    (hfit : a + bs.length ≤ Config.memSize) {j : Nat} (hj : j < bs.length) :
    Memory.read (Memory.writeList m a bs) (a + j) = bs[j] := by
  rw [Memory.read_writeList hwf bs hfit, if_pos (by omega), Nat.add_sub_cancel_left, List.getD_eq_getElem _ _ hj]

/-- Consecutive writes reach no address before their first or after their last. -/
theorem read_writeList_outside {m : Memory} (hwf : Memory.wf m = true) {bs : List Byte} {a c : Nat}
    (hfit : a + bs.length ≤ Config.memSize) (hc : c < a ∨ a + bs.length ≤ c) :
    Memory.read (Memory.writeList m a bs) c = Memory.read m c := by
  rw [Memory.read_writeList hwf bs hfit, if_neg (by omega)]

/-- Settles O44: `ROM_MAX` is what fits between `PROG_BASE` and the end of memory, so a ROM of at most that length is
read back by the laws of consecutive writes, and a longer one is refused before any write. -/
theorem loadWritesTheRomOrRefuses : Obligations.LoadWritesTheRomOrRefuses := by
  intro rom s rest hwf hsched
  have hstep := step_of_sched_cons hsched
  refine ⟨fun hle => ?_, fun hgt => ?_⟩
  · have hfit : Config.progBase + rom.length ≤ Config.memSize := Nat.add_le_add_left hle 0x200
    exact ⟨_, hstep.trans (applyEvent_load_of_le _ hle), rfl, reply_load_of_le s hle,
      fun _ hj => read_writeList_inside hwf hfit hj, fun _ ha => read_writeList_outside hwf hfit ha⟩
  · exact ⟨hstep.trans (applyEvent_load_of_gt _ hgt), reply_load_of_gt s hgt⟩

end Sys2Proof.Proofs
end

section
/-! The encoding (30_encoding.md R82): the source's shift-and-mask formulas for the five fields. -/

namespace Sys2Proof.Proofs

/-- Settles O2: each field's law gives it as a quotient and a remainder by powers of two; a right shift is the
quotient, and an `and` with a mask of ones is the remainder. -/
theorem fieldsOfEveryWord : Obligations.FieldsOfEveryWord := by
  intro w
  refine ⟨?nnn, ?n, ?x, ?y, ?kk⟩
  case nnn => exact (fieldNnn_toNat w).trans (Nat.and_two_pow_sub_one_eq_mod _ 12).symm
  case n => exact (fieldN_toNat w).trans (Nat.and_two_pow_sub_one_eq_mod _ 4).symm
  case x => rw [fieldX_val, Nat.shiftRight_eq_div_pow]; exact (Nat.and_two_pow_sub_one_eq_mod _ 4).symm
  case y => rw [fieldY_val, Nat.shiftRight_eq_div_pow]; exact (Nat.and_two_pow_sub_one_eq_mod _ 4).symm
  case kk => exact (fieldKk_toNat w).trans (Nat.and_two_pow_sub_one_eq_mod _ 8).symm

end Sys2Proof.Proofs
end

section
/-! One `CYCLE` (40_cycle_and_flow.md R100 to R103): what it does in each of its stages, and a step that takes one. -/

namespace Sys2Proof.Proofs

open Sys2Proof.Machine Sys2Proof.Safety Sys2Proof.Laws

/-! ### The stages of a cycle -/

/-- A halted core does nothing (R103). -/
theorem cycle_of_halted {s : State} (h : s.fault.cause ≠ .none) : cycle s = .next s := by
  simp [cycle, State.halted, h]

/-- A fetch that needs a byte above 4095 faults at the first such address, and only `FAULT` changes (R101, D22). -/
theorem cycle_of_fetch_fault {s : State} (hrun : Runs s) (hpc : 4094 < s.pc.toNat) :
    cycle s = .next { s with fault := ⟨.outOfBoundsMemoryAccess, BitVec.ofNat 16 (max s.pc.toNat 4096)⟩ } := by
  simp [cycle, State.halted, hrun, fetch_of_ge s (Nat.succ_le_succ hpc), raise]

/-- With both bytes in memory, a cycle advances `pc` and runs the word they make (R100). -/
theorem cycle_of_fetch {s : State} (hrun : Runs s) (hpc : s.pc.toNat ≤ 4094) :
    cycle s = runWord (wordAt s s.pc.toNat) s.advance := by
  have hfetch := fetch_of_lt s (Nat.succ_lt_succ (Nat.lt_succ_of_le hpc))
  simp [cycle, State.halted, hrun, hfetch, wordAt_eq]

/-- A word that decodes is executed. -/
theorem runWord_of_ok {w : Word} {i : Instr} (s : State) (h : decodeWord w = .ok i) : runWord w s = exec i s := by
  simp [runWord, h]

/-- A word that does not decode is recorded in `FAULT` (R102). -/
theorem runWord_of_error {w : Word} {e : DecodeError} (s : State) (h : decodeWord w = .error e) :
    runWord w s = .next { s with fault := ⟨.unknownOpcode, w⟩ } := by
  simp [runWord, h, raise]

/-! ### A step that takes a cycle -/

/-- The fetch fault, as the next step: nothing but `FAULT` and the schedule changes (R101, D22). -/
theorem step_of_fetch_fault {s : State} (hrun : Runs s) (hnext : CycleNext s) (hpc : 4094 < s.pc.toNat) :
    step s = .next { afterEvent s with
      fault := ⟨.outOfBoundsMemoryAccess, BitVec.ofNat 16 (max s.pc.toNat 4096)⟩ } :=
  (step_of_cycleNext hnext).trans (cycle_of_fetch_fault (s := afterEvent s) hrun hpc)

/-- The step of a running core whose two bytes at `pc` are in memory runs the word they make. -/
theorem step_of_fetch {s : State} (hrun : Runs s) (hnext : CycleNext s) (hpc : s.pc.toNat ≤ 4094) :
    step s = runWord (wordAt s s.pc.toNat) { afterEvent s with pc := s.pc + 2 } :=
  (step_of_cycleNext hnext).trans (cycle_of_fetch (s := afterEvent s) hrun hpc)

/-- Settles O7: halted, `pc` above 4095, `pc` at 4095 and a fetch that succeeds are the branches of the statement; the
two faults are `step_of_fetch_fault` with its maximum evaluated, and the last branch splits on what the word decodes
to. -/
theorem cycleRunsItsFourStages : Obligations.CycleRunsItsFourStages := by
  intro s hnext
  split_ifs with hhalt habove htop
  · exact (step_of_cycleNext hnext).trans (cycle_of_halted (s := afterEvent s) hhalt)
  · rw [step_of_fetch_fault (not_not.mp hhalt) hnext (by omega), max_eq_left habove, BitVec.ofNat_toNat,
      BitVec.setWidth_eq]
  · rw [step_of_fetch_fault (not_not.mp hhalt) hnext (by omega), htop]
    rfl
  · rw [step_of_fetch (not_not.mp hhalt) hnext (by omega)]
    cases hdecode : decodeWord (wordAt s s.pc.toNat) with
    | ok i => exact runWord_of_ok _ hdecode
    | error e => exact runWord_of_error _ hdecode

/-- Settles O6: the fetch succeeds, and the word it gives decodes. -/
theorem stepRunsDecodedInstruction : Obligations.StepRunsDecodedInstruction := by
  intro s i hrun hnext hpc _ hdecode
  exact (step_of_fetch hrun hnext hpc).trans (runWord_of_ok _ hdecode)

end Sys2Proof.Proofs
end

section
/-! Control transfer (40_cycle_and_flow.md R104 to R108): the words of SYS, RET, JP, CALL and JP V0, and their meanings. -/

namespace Sys2Proof.Proofs

open Sys2Proof.Machine Sys2Proof.Safety Sys2Proof.Laws

/-! ### The words -/

theorem decodeWord_patNnn_jp (nnn : Addr) : decodeWord (patNnn 0x1 nnn) = .ok (.jp nnn) := by
  have hword : patNnn 0x1 nnn = wordNnn 0x1 nnn := patNnn_eq 0x1 nnn
  simp [hword, decodeWord]

theorem decodeWord_patNnn_call (nnn : Addr) : decodeWord (patNnn 0x2 nnn) = .ok (.call nnn) := by
  have hword : patNnn 0x2 nnn = wordNnn 0x2 nnn := patNnn_eq 0x2 nnn
  simp [hword, decodeWord]

theorem decodeWord_patNnn_jpV0 (nnn : Addr) : decodeWord (patNnn 0xB nnn) = .ok (.jpV0 nnn) := by
  have hword : patNnn 0xB nnn = wordNnn 0xB nnn := patNnn_eq 0xB nnn
  simp [hword, decodeWord]

/-- Group 0 without its two fixed words: a word `0nnn` equal to one of them has that word's own `nnn`. -/
theorem decodeWord_patNnn_sys {nnn : Addr} (hcls : nnn ≠ 0x0E0) (hret : nnn ≠ 0x0EE) :
    decodeWord (patNnn 0x0 nnn) = .ok (.sys nnn) := by
  have hword : patNnn 0x0 nnn = wordNnn 0#4 nnn := patNnn_eq 0#4 nnn
  have hnnn {c : Word} (h : wordNnn 0#4 nnn = c) : nnn = fieldNnn c := by rw [← h, fieldNnn_wordNnn]
  have hne_cls : wordNnn 0#4 nnn ≠ 0x00E0#16 := fun h => hcls (hnnn h)
  have hne_ret : wordNnn 0#4 nnn ≠ 0x00EE#16 := fun h => hret (hnnn h)
  simp [hword, decodeWord, decodeGroup0, hne_cls, hne_ret]

/-! ### The meanings -/

theorem wordOfAddr_toNat (nnn : Addr) : (wordOfAddr nnn).toNat = nnn.toNat :=
  BitVec.toNat_setWidth_of_le (by decide)

/-- The target of `Bnnn` is the plain sum: twelve bits and eight never reach 2 to the 16 (R108). -/
theorem wordOfAddr_add_wordOfByte_toNat (nnn : Addr) (b : Byte) :
    (wordOfAddr nnn + wordOfByte b).toNat = nnn.toNat + b.toNat := by
  have hb : (wordOfByte b).toNat = b.toNat := BitVec.toNat_setWidth_of_le (by decide)
  rw [BitVec.toNat_add, wordOfAddr_toNat, hb]
  omega

/-- A jump changes `pc` alone. -/
theorem onlyPc_jumpTo (s : State) (w : Word) : OnlyPc s (s.jumpTo w) := ⟨rfl, fun _ _ => rfl, fun _ _ => rfl⟩

/-- RET with a live entry. -/
theorem exec_ret_of_pos (s : State) (h : 0 < s.sp.val) :
    exec .ret s = .next { s with pc := s.stack[s.sp.val - 1]'(by omega), sp := ⟨s.sp.val - 1, by omega⟩ } := by
  simp [exec, execRet, pop_of_pos s h, State.jumpTo]

/-- RET with no live entry. -/
theorem exec_ret_of_empty (s : State) (h : s.sp.val = 0) :
    exec .ret s = .next { s with fault := ⟨.stackUnderflow, 0⟩ } := by
  simp [exec, execRet, pop_empty s (Nat.not_lt.mpr h.le), raise]

/-- CALL with room on the stack. -/
theorem exec_call_of_lt (nnn : Addr) (s : State) (h : s.sp.val < 16) :
    exec (.call nnn) s = .next { s with
      pc := wordOfAddr nnn, sp := ⟨s.sp.val + 1, Nat.succ_lt_succ h⟩, stack := s.stack.set s.sp.val s.pc } := by
  simp [exec, execCall, push_of_lt s.pc s h, State.jumpTo]

/-- CALL on a full stack. -/
theorem exec_call_of_full (nnn : Addr) (s : State) (h : s.sp.val = 16) :
    exec (.call nnn) s = .next { s with fault := ⟨.stackOverflow, s.pc⟩ } := by
  simp [exec, execCall, push_full s.pc s (Nat.not_lt.mpr h.ge), raise]

/-! ### The statements -/

/-- Settles O11: the word by `decodeWord_patNnn_sys`; `execSys` is the identity. -/
theorem sysDoesNothing : Obligations.SysDoesNothing :=
  fun _ _ => ⟨decodeWord_patNnn_sys, rfl⟩

/-- Settles O12: one clause for each branch of the pop. -/
theorem retPopsOrFaults : Obligations.RetPopsOrFaults := by
  intro s
  refine ⟨rfl, fun hpos => ?_, exec_ret_of_empty s⟩
  exact ⟨_, exec_ret_of_pos s hpos, rfl, rfl, rfl, fun _ _ => rfl, fun _ _ => rfl⟩

/-- Settles O13: both jumps are `jumpTo`, and the fetch fault after one is that of any running state with `pc` past
4094, so the clause does not use which of them led there. -/
theorem jumpsSetPc : Obligations.JumpsSetPc := by
  intro nnn s
  refine ⟨decodeWord_patNnn_jp nnn, decodeWord_patNnn_jpV0 nnn, ?jp, ?jpV0, fun _ _ => step_of_fetch_fault⟩
  case jp => exact ⟨_, rfl, wordOfAddr_toNat nnn, onlyPc_jumpTo s _⟩
  case jpV0 => exact ⟨_, rfl, wordOfAddr_add_wordOfByte_toNat nnn (s.getV 0), onlyPc_jumpTo s _⟩

/-- Settles O14: one clause for each branch of the push; a set entry reads the pushed address at its own index and
leaves every other one. -/
theorem callPushesOrFaults : Obligations.CallPushesOrFaults := by
  intro nnn s
  refine ⟨decodeWord_patNnn_call nnn, fun hlt => ?_, exec_call_of_full nnn s⟩
  exact ⟨_, exec_call_of_lt nnn s hlt, wordOfAddr_toNat nnn, rfl, Vector.getElem_set_self hlt,
    fun _ hk hne => Vector.getElem_set_ne hlt hk hne.symm, rfl, fun _ _ => rfl, fun _ _ => rfl⟩

end Sys2Proof.Proofs
end

section
/-! The skips on registers (41_skips.md R120 to R124): the words of the four, and when each adds 2 to `pc`. -/

namespace Sys2Proof.Proofs

open Sys2Proof.Machine Sys2Proof.Safety Sys2Proof.Laws

/-! ### The words -/

theorem decodeWord_patXkk_seImm (x : Reg) (kk : Byte) : decodeWord (patXkk 0x3 x kk) = .ok (.seImm x kk) := by
  have hword : patXkk 0x3 x kk = wordXkk 0x3 x kk := patXkk_eq 0x3 x kk
  simp [hword, decodeWord]

theorem decodeWord_patXkk_sneImm (x : Reg) (kk : Byte) : decodeWord (patXkk 0x4 x kk) = .ok (.sneImm x kk) := by
  have hword : patXkk 0x4 x kk = wordXkk 0x4 x kk := patXkk_eq 0x4 x kk
  simp [hword, decodeWord]

/-- Group 5 at every low nibble: only 0 gives an instruction (R122). -/
theorem decodeWord_patXyn_group5 (x y : Reg) (n : Nibble) : decodeWord (patXyn 0x5 x y n.toNat) =
    if n = 0 then .ok (.seReg x y) else .error (.unknownOpcode (patXyn 0x5 x y n.toNat)) := by
  have hword : patXyn 0x5 x y n.toNat = wordXyn 0x5 x y n := patXyn_eq 0x5 x y n
  simp [hword, decodeWord]

/-- Group 9 at every low nibble: only 0 gives an instruction (R123). -/
theorem decodeWord_patXyn_group9 (x y : Reg) (n : Nibble) : decodeWord (patXyn 0x9 x y n.toNat) =
    if n = 0 then .ok (.sneReg x y) else .error (.unknownOpcode (patXyn 0x9 x y n.toNat)) := by
  have hword : patXyn 0x9 x y n.toNat = wordXyn 0x9 x y n := patXyn_eq 0x9 x y n
  simp [hword, decodeWord]

/-! ### The skip on two bytes -/

theorem skipIf_beq_pc (a b : Byte) (s : State) :
    (skipIf (a == b) s).pc = if a = b then s.pc + 2 else s.pc := by
  obtain ⟨-, hpc⟩ := skipIf_spec (a == b) s
  simpa using hpc

theorem skipIf_bne_pc (a b : Byte) (s : State) :
    (skipIf (a != b) s).pc = if a = b then s.pc else s.pc + 2 := by
  obtain ⟨-, hpc⟩ := skipIf_spec (a != b) s
  simpa using hpc

/-- A skip changes `pc` alone, whatever its condition (R124). -/
theorem onlyPc_skipIf (c : Bool) (s : State) : OnlyPc s (skipIf c s) := (skipIf_spec c s).1

/-! ### The statements -/

/-- Settles O16: each of the two is a skip on `V[x]` and `kk`. -/
theorem skipsOnImmediate : Obligations.SkipsOnImmediate := by
  intro x kk s
  refine ⟨decodeWord_patXkk_seImm x kk, decodeWord_patXkk_sneImm x kk, ?seImm, ?sneImm⟩
  case seImm => exact ⟨_, rfl, skipIf_beq_pc _ _ s, onlyPc_skipIf _ s⟩
  case sneImm => exact ⟨_, rfl, skipIf_bne_pc _ _ s, onlyPc_skipIf _ s⟩

/-- Settles O17: each of the two is a skip on `V[x]` and `V[y]`; the words of one group are one lemma, taken at low
nibble 0 and at every other. -/
theorem skipsOnRegister : Obligations.SkipsOnRegister := by
  intro x y s
  refine ⟨decodeWord_patXyn_group5 x y 0, decodeWord_patXyn_group9 x y 0, fun n hn => ⟨?group5, ?group9⟩, ?seReg, ?sneReg⟩
  case group5 => exact (decodeWord_patXyn_group5 x y n).trans (if_neg hn)
  case group9 => exact (decodeWord_patXyn_group9 x y n).trans (if_neg hn)
  case seReg => exact ⟨_, rfl, skipIf_beq_pc _ _ s, onlyPc_skipIf _ s⟩
  case sneReg => exact ⟨_, rfl, skipIf_bne_pc _ _ s, onlyPc_skipIf _ s⟩

end Sys2Proof.Proofs
end

section
/-! Loads and arithmetic (42_load_and_alu.md R131 to R142): the words of groups 6, 7 and 8, the flag bytes, and the
instructions that write one register, or VF and then one register. -/

namespace Sys2Proof.Proofs

open Sys2Proof.Machine Sys2Proof.Safety Sys2Proof.Laws

/-! ### The words -/

theorem decodeWord_patXkk_ldImm (x : Reg) (kk : Byte) : decodeWord (patXkk 0x6 x kk) = .ok (.ldImm x kk) := by
  have hword : patXkk 0x6 x kk = wordXkk 0x6 x kk := patXkk_eq 0x6 x kk
  simp [hword, decodeWord]

theorem decodeWord_patXkk_addImm (x : Reg) (kk : Byte) : decodeWord (patXkk 0x7 x kk) = .ok (.addImm x kk) := by
  have hword : patXkk 0x7 x kk = wordXkk 0x7 x kk := patXkk_eq 0x7 x kk
  simp [hword, decodeWord]

/-- A word of group 8 is decoded by its low nibble alone; the other two fields are its registers. -/
theorem decodeWord_patXyn_group8 {x y : Reg} (n : Nibble) {i : Instr} (h : decodeGroup8 (wordXyn 0x8 x y n) = .ok i) :
    decodeWord (patXyn 0x8 x y n.toNat) = .ok i := by
  have hword : patXyn 0x8 x y n.toNat = wordXyn 0x8 x y n := patXyn_eq 0x8 x y n
  simpa [hword, decodeWord] using h

/-! ### The flag bytes (R137 to R141) -/

theorem carryFlag_eq (a b : Byte) : carryFlag a b = if a.toNat + b.toNat > 255 then 1 else 0 := by
  simp [carryFlag, flagOf]

theorem greaterFlag_eq (a b : Byte) : greaterFlag a b = if a.toNat > b.toNat then 1 else 0 := by
  simp [greaterFlag, flagOf]

/-- `1 if c else 0`, as the number of a truth value. -/
theorem flagOf_toNat (c : Bool) : (flagOf c).toNat = c.toNat := by cases c <;> rfl

/-- Bit 0 is the remainder by 2. -/
theorem lowBitFlag_toNat (a : Byte) : (lowBitFlag a).toNat = a.toNat % 2 := by
  rw [lowBitFlag, flagOf_toNat, BitVec.getLsbD, Nat.toNat_testBit]
  omega

/-- Bit 7 is the quotient by 128: nothing lies above it. -/
theorem highBitFlag_toNat (a : Byte) : (highBitFlag a).toNat = a.toNat / 128 := by
  rw [highBitFlag, flagOf_toNat, BitVec.getLsbD, Nat.toNat_testBit]
  omega

/-! ### A flag, and then a result (R142) -/

/-- Once the flag is written, VF reads as the flag and every other register as before. -/
theorem getV_setV_vF (s : State) (f : Byte) (x : Reg) : (s.setV vF f).getV x = if x = 15 then f else s.getV x := by
  simp only [getV_setV, eq_comm]

/-- The flag survives a result that goes to another register. -/
theorem getV_vF_of_flag_then_result (s : State) (f b : Byte) {x : Reg} (hx : x ≠ 15) :
    ((s.setV vF f).setV x b).getV 15 = f := by
  rw [getV_setV_of_ne _ _ _ _ hx, getV_setV_same]

/-- A flag and a result change VF and the register of the result. -/
theorem onlyRegs_flag_then_result (s : State) (f b : Byte) (x : Reg) :
    OnlyRegs s ((s.setV vF f).setV x b) [15, x] :=
  onlyRegs_setV_setV s f b List.mem_cons_self (List.mem_cons_of_mem _ List.mem_cons_self)

/-- A difference taken after the flag is written: an operand that is VF is the flag (D9). -/
theorem getV_subInto_after_flag (s : State) (f : Byte) (x a b : Reg) : (subInto x a b (s.setV vF f)).getV x =
    (if a = 15 then f else s.getV a) - (if b = 15 then f else s.getV b) := by
  rw [subInto, getV_setV_same, getV_setV_vF, getV_setV_vF]

/-- A right shift taken after the flag is written, of the flag itself for register 15 (D9). -/
theorem getV_shiftRightInto_after_flag (s : State) (f : Byte) (x : Reg) :
    ((shiftRightInto x (s.setV vF f)).getV x).toNat = (if x = 15 then f else s.getV x).toNat / 2 := by
  rw [shiftRightInto, getV_setV_same, getV_setV_vF, BitVec.toNat_ushiftRight, Nat.shiftRight_eq_div_pow, pow_one]

/-- A left shift taken after the flag is written, of the flag itself for register 15 (D9). -/
theorem getV_shiftLeftInto_after_flag (s : State) (f : Byte) (x : Reg) :
    ((shiftLeftInto x (s.setV vF f)).getV x).toNat = (if x = 15 then f else s.getV x).toNat * 2 % 256 := by
  rw [shiftLeftInto, getV_setV_same, getV_setV_vF, BitVec.toNat_shiftLeft, Nat.shiftLeft_eq, pow_one]

/-! ### The shifts, one at a time -/

/-- What SHR ends in (R139). -/
theorem exec_shr_spec (x y : Reg) (s : State) : ∃ t, exec (.shr x y) s = .next t ∧ OnlyRegs s t [15, x] ∧
    (x ≠ 15 → (t.getV x).toNat = (s.getV x).toNat / 2 ∧ (t.getV 15).toNat = (s.getV x).toNat % 2) ∧
    (x = 15 → t.getV 15 = 0) := by
  have hresult := getV_shiftRightInto_after_flag s (lowBitFlag (s.getV x)) x
  refine ⟨_, rfl, onlyRegs_flag_then_result s _ _ x, fun hx => ⟨?result, ?flag⟩, fun hx => ?ofFlag⟩
  case result => rwa [if_neg hx] at hresult
  case flag => exact (congrArg BitVec.toNat (getV_vF_of_flag_then_result s _ _ hx)).trans (lowBitFlag_toNat _)
  case ofFlag =>
    subst hx
    rw [if_pos rfl, lowBitFlag_toNat] at hresult
    exact BitVec.eq_of_toNat_eq (hresult.trans (Nat.div_eq_of_lt (Nat.mod_lt _ two_pos)))

/-- What SHL ends in (R141). -/
theorem exec_shl_spec (x y : Reg) (s : State) : ∃ t, exec (.shl x y) s = .next t ∧ OnlyRegs s t [15, x] ∧
    (x ≠ 15 → (t.getV x).toNat = (s.getV x).toNat * 2 % 256 ∧ (t.getV 15).toNat = (s.getV x).toNat / 128) ∧
    (x = 15 → (t.getV 15).toNat = 2 * ((s.getV 15).toNat / 128)) := by
  have hresult := getV_shiftLeftInto_after_flag s (highBitFlag (s.getV x)) x
  refine ⟨_, rfl, onlyRegs_flag_then_result s _ _ x, fun hx => ⟨?result, ?flag⟩, fun hx => ?ofFlag⟩
  case result => rwa [if_neg hx] at hresult
  case flag => exact (congrArg BitVec.toNat (getV_vF_of_flag_then_result s _ _ hx)).trans (highBitFlag_toNat _)
  case ofFlag =>
    subst hx
    rw [if_pos rfl, highBitFlag_toNat] at hresult
    exact hresult.trans (by omega)

/-! ### The statements -/

/-- Settles O20: the sum is that of the old registers, and the carry is written before it. -/
theorem addWithCarry : Obligations.AddWithCarry := by
  intro x y s
  refine ⟨decodeWord_patXyn_group8 0x4 (by simp [decodeGroup8]), _, rfl, ?sum, fun hx => ?carry,
    onlyRegs_flag_then_result s _ _ x⟩
  case sum => rw [getV_setV_same, BitVec.toNat_add]
  case carry => rw [getV_vF_of_flag_then_result s _ _ hx, carryFlag_eq]

/-- Settles O21: `greaterFlag` of the old registers, and the difference after it. -/
theorem subtractWithFlag : Obligations.SubtractWithFlag := by
  intro x y s
  refine ⟨decodeWord_patXyn_group8 0x5 (by simp [decodeGroup8]), fun f hf => ?_⟩
  obtain rfl : greaterFlag (s.getV x) (s.getV y) = f := (greaterFlag_eq _ _).trans hf.symm
  exact ⟨_, rfl, getV_subInto_after_flag s _ x x y, getV_vF_of_flag_then_result s _ _, onlyRegs_flag_then_result s _ _ x⟩

/-- Settles O22: as O21, the flag and the difference with their operands exchanged. -/
theorem subtractReversedWithFlag : Obligations.SubtractReversedWithFlag := by
  intro x y s
  refine ⟨decodeWord_patXyn_group8 0x7 (by simp [decodeGroup8]), fun f hf => ?_⟩
  obtain rfl : greaterFlag (s.getV y) (s.getV x) = f := (greaterFlag_eq _ _).trans hf.symm
  exact ⟨_, rfl, getV_subInto_after_flag s _ x y x, getV_vF_of_flag_then_result s _ _, onlyRegs_flag_then_result s _ _ x⟩

/-- Settles O23: the two words, then each shift by its own lemma. -/
theorem shiftsWithFlag : Obligations.ShiftsWithFlag := by
  intro x y s
  exact ⟨decodeWord_patXyn_group8 0x6 (by simp [decodeGroup8]), decodeWord_patXyn_group8 0xE (by simp [decodeGroup8]),
    exec_shr_spec x y s, exec_shl_spec x y s⟩

/-- Settles O18: each is one register write, and the addition of bytes is that of numbers modulo 256. -/
theorem loadAndAddImmediate : Obligations.LoadAndAddImmediate := by
  intro x kk s
  refine ⟨decodeWord_patXkk_ldImm x kk, decodeWord_patXkk_addImm x kk, ?ldImm, ?addImm⟩
  case ldImm => exact ⟨_, rfl, getV_setV_same s x kk, onlyRegs_setV s _ List.mem_cons_self⟩
  case addImm =>
    refine ⟨_, rfl, ?_, onlyRegs_setV s _ List.mem_cons_self⟩
    rw [getV_setV_same, BitVec.toNat_add]

/-- Settles O19: each is one register write, of a byte whose bits the library gives. -/
theorem copyAndBitwise : Obligations.CopyAndBitwise := by
  intro x y s
  refine ⟨decodeWord_patXyn_group8 0x0 (by simp [decodeGroup8]), decodeWord_patXyn_group8 0x1 (by simp [decodeGroup8]),
    decodeWord_patXyn_group8 0x2 (by simp [decodeGroup8]), decodeWord_patXyn_group8 0x3 (by simp [decodeGroup8]),
    ?ldReg, ?orReg, ?andReg, ?xorReg⟩
  case ldReg => exact ⟨_, rfl, getV_setV_same s x _, onlyRegs_setV s _ List.mem_cons_self⟩
  case orReg =>
    refine ⟨_, rfl, onlyRegs_setV s _ List.mem_cons_self, fun b => ?_⟩
    rw [getV_setV_same, BitVec.getLsbD_or]
  case andReg =>
    refine ⟨_, rfl, onlyRegs_setV s _ List.mem_cons_self, fun b => ?_⟩
    rw [getV_setV_same, BitVec.getLsbD_and]
  case xorReg =>
    refine ⟨_, rfl, onlyRegs_setV s _ List.mem_cons_self, fun b => ?_⟩
    rw [getV_setV_same, BitVec.getLsbD_xor]

end Sys2Proof.Proofs
end

section
/-! Index register and memory (43_index_and_memory.md R150 to R156): the words of `Annn` and of the five of group F, the
writes of `I`, and the transfers from `I` on, each run through or cut short at the first address above 4095 (D8). -/

namespace Sys2Proof.Proofs

open Sys2Proof.Machine Sys2Proof.Safety Sys2Proof.Laws

/-! ### The words -/

theorem decodeWord_patNnn_ldI (nnn : Addr) : decodeWord (patNnn 0xA nnn) = .ok (.ldI nnn) := by
  have hword : patNnn 0xA nnn = wordNnn 0xA nnn := patNnn_eq 0xA nnn
  simp [hword, decodeWord]

/-- A word of group F is decoded by its low byte alone; the field left is its register. -/
theorem decodeWord_patXkk_groupF {x : Reg} (kk : Byte) {i : Instr} (h : decodeGroupF (wordXkk 0xF x kk) = .ok i) :
    decodeWord (patXkk 0xF x kk) = .ok i := by
  have hword : patXkk 0xF x kk = wordXkk 0xF x kk := patXkk_eq 0xF x kk
  simpa [hword, decodeWord] using h

/-! ### The writes of `I` (R150 to R152) -/

/-- A write of `I` changes `I` alone. -/
theorem onlyI_setI (s : State) (w : Word) : OnlyI s (s.setI w) := ⟨rfl, fun _ _ => rfl, fun _ _ => rfl⟩

/-- The mask of `Fx1E` is the remainder by 4096, and 4096 divides the 65536 the sum is taken modulo (R151). -/
theorem add_wordOfByte_and_mask_toNat (w : Word) (b : Byte) :
    ((w + wordOfByte b) &&& 0xFFF).toNat = (w.toNat + b.toNat) % 4096 := by
  have hb : (wordOfByte b).toNat = b.toNat := BitVec.toNat_setWidth_of_le (by decide)
  calc ((w + wordOfByte b) &&& 0xFFF).toNat
      = (w + wordOfByte b).toNat % 2 ^ 12 := (BitVec.toNat_and _ _).trans (Nat.and_two_pow_sub_one_eq_mod _ 12)
    _ = (w.toNat + b.toNat) % 2 ^ 16 % 2 ^ 12 := by rw [BitVec.toNat_add, hb]
    _ = (w.toNat + b.toNat) % 4096 := Nat.mod_mod_of_dvd _ (by decide)

/-- Five times a byte fits `I`, so `Fx29` reduces nothing (R152). -/
theorem glyphAddress_toNat (b : Byte) : (BitVec.ofNat 16 (b.toNat * Config.fontStride)).toNat = b.toNat * 5 := by
  rw [BitVec.toNat_ofNat]
  exact Nat.mod_eq_of_lt (show b.toNat * 5 < 2 ^ 16 by omega)

/-! ### Addresses from `I` on (R156) -/

theorem notMem_addrsFromI {s : State} {n a : Nat} :
    a ∉ addrsFromI s n ↔ a < s.i.toNat ∨ s.i.toNat + n ≤ a := by
  rw [mem_addrsFromI]
  refine ⟨fun h => ?_, fun h ⟨k, hk, ha⟩ => ?_⟩
  · by_contra hin
    exact h ⟨a - s.i.toNat, by omega, by unfold effAddr; omega⟩
  · unfold effAddr at ha
    omega

/-- `4096 - I` accesses from `I` on lie in memory (none for `I` above 4095), and the next one has the address that
`dataFault` names. -/
theorem effAddr_first_above (s : State) : effAddr s (4096 - s.i.toNat) = max s.i.toNat 4096 := by
  unfold effAddr
  omega

/-! ### Stores from `I` on -/

/-- The loop of `Fx33` and `Fx55`: `n` stores from `I` on, the byte of each given by its offset and the state. -/
def storesFromI (f : Nat → State → Byte) (n : Nat) (s : State) : Res State :=
  forUpTo (fun k t => memWrite (effAddr t k) (f k t) t) n s

theorem exec_ldB_eq (x : Reg) (s : State) :
    exec (.ldB x) s = finish (storesFromI (fun k _ => bcdDigit (s.getV x) k) 3 s) := rfl

theorem exec_stRegs_eq (x : Reg) (s : State) :
    exec (.stRegs x) s = finish (storesFromI (fun k t => t.getV (regOfNat k)) (x.val + 1) s) := rfl

section Stores

variable {f : Nat → State → Byte} {g : Nat → Byte} {s : State} (hwf : Memory.wf s.mem = true)
  (hfg : ∀ k t, t.v = s.v → f k t = g k) {n : Nat}
include hwf hfg

/-- Stores that lie in memory change the bytes they name and nothing else. With `I` above 4095 there are none. -/
theorem storesFromI_of_le (hn : n ≤ 4096 - s.i.toNat) :
    ∃ m, storesFromI f n s = .ok { s with mem := m } ∧ KeepsMem s { s with mem := m } (addrsFromI s n) ∧
      ∀ k, k < n → Memory.read m (effAddr s k) = g k := by
  rcases Nat.lt_or_ge 4096 s.i.toNat with habove | hbelow
  · obtain rfl : n = 0 := by omega
    exact ⟨s.mem, rfl, fun _ _ => rfl, by omega⟩
  · obtain ⟨t, hloop, ht, -, hread, hkept⟩ := storeLoop hwf hfg n (by omega)
    exact ⟨t.mem, hloop.trans (congrArg _ ht), fun a ha => hkept a (notMem_addrsFromI.mp ha), hread⟩

/-- A store instruction whose last address is in memory. -/
theorem finish_storesFromI_of_le (hn : s.i.toNat + n ≤ 4096) :
    ∃ t, finish (storesFromI f n s) = .next t ∧ OnlyMem s t (addrsFromI s n) ∧
      ∀ k, k < n → t.readByte (effAddr s k) = g k := by
  obtain ⟨m, hloop, hkept, hread⟩ := storesFromI_of_le hwf hfg (n := n) (by omega)
  exact ⟨_, congrArg finish hloop, ⟨rfl, fun _ _ => rfl, hkept⟩, hread⟩

/-- A store instruction, of one byte at least, that runs out of memory: the stores below 4096 stay, and the next one
faults (D8). -/
theorem finish_storesFromI_of_gt (hpos : 0 < n) (hn : 4096 < s.i.toNat + n) :
    ∃ t, finish (storesFromI f n s) = .next t ∧ t = { s with mem := t.mem, fault := dataFault s } ∧
      KeepsRegs s t [] ∧ KeepsMem s t (addrsFromI s (4096 - s.i.toNat)) ∧
      ∀ k, k < n → effAddr s k < 4096 → t.readByte (effAddr s k) = g k := by
  obtain ⟨m, hloop, hkept, hread⟩ := storesFromI_of_le hwf hfg le_rfl
  have haddr : effAddr { s with mem := m } (4096 - s.i.toNat) = max s.i.toNat 4096 := effAddr_first_above s
  have hfault : memWrite (effAddr { s with mem := m } (4096 - s.i.toNat)) (f (4096 - s.i.toNat) { s with mem := m })
      { s with mem := m } = .error { s with mem := m, fault := dataFault s } := by
    rw [haddr]
    exact memWrite_of_ge _ _ (le_max_right _ _)
  refine ⟨_, congrArg finish (forUpTo_stops hloop hfault (by omega)), rfl, fun _ _ => rfl, hkept,
    fun k _ hk => hread k ?_⟩
  unfold effAddr at hk
  omega

end Stores

/-! ### Loads from `I` on -/

/-- Loads that lie in memory change the registers they name and nothing else. With `I` above 4095 there are none. -/
theorem forUpTo_loadReg_of_le {s : State} {n : Nat} (hn : n ≤ 4096 - s.i.toNat) (h16 : n ≤ 16) :
    ∃ v, forUpTo loadReg n s = .ok { s with v := v } ∧
      ∀ r : Reg, v[r] = if r.val < n then s.readByte (effAddr s r.val) else s.getV r := by
  rcases Nat.lt_or_ge 4096 s.i.toNat with habove | hbelow
  · obtain rfl : n = 0 := by omega
    exact ⟨s.v, rfl, fun _ => rfl⟩
  · obtain ⟨t, hloop, ht, hread⟩ := loadLoop n (s := s) (by omega) h16
    exact ⟨t.v, hloop.trans (congrArg _ ht), hread⟩

/-- A load from an address above 4095 raises with that address. -/
theorem loadReg_of_ge {k : Nat} {s : State} (h : 4096 ≤ effAddr s k) :
    loadReg k s = .error (raise .outOfBoundsMemoryAccess (BitVec.ofNat 16 (effAddr s k)) s) := by
  rw [loadReg, memRead_of_ge s h]

/-- `Fx65` whose last address is in memory (R155). -/
theorem exec_ldRegs_of_le {x : Reg} {s : State} (h : s.i.toNat + x.val ≤ 4095) :
    ∃ t, exec (.ldRegs x) s = .next t ∧ t = { s with v := t.v } ∧ KeepsMem s t [] ∧
      ∀ r : Reg, t.getV r = if r ≤ x then s.readByte (effAddr s r.val) else s.getV r := by
  obtain ⟨v, hloop, hread⟩ := forUpTo_loadReg_of_le (s := s) (n := x.val + 1) (by omega) (by omega)
  refine ⟨_, congrArg finish hloop, rfl, fun _ _ => rfl, fun r => (hread r).trans ?_⟩
  simp only [Nat.lt_succ_iff, Fin.le_def]

/-- `Fx65` that runs out of memory: the loads below 4096 stay, and the next one faults (R155, D8). -/
theorem exec_ldRegs_of_gt {x : Reg} {s : State} (h : 4095 < s.i.toNat + x.val) :
    ∃ t, exec (.ldRegs x) s = .next t ∧ t = { s with v := t.v, fault := dataFault s } ∧ KeepsMem s t [] ∧
      ∀ r : Reg, t.getV r = if r ≤ x ∧ effAddr s r.val ≤ 4095 then s.readByte (effAddr s r.val) else s.getV r := by
  obtain ⟨v, hloop, hread⟩ := forUpTo_loadReg_of_le (s := s) le_rfl (by omega)
  have haddr : effAddr { s with v := v } (4096 - s.i.toNat) = max s.i.toNat 4096 := effAddr_first_above s
  have hfault : loadReg (4096 - s.i.toNat) { s with v := v } = .error { s with v := v, fault := dataFault s } := by
    rw [loadReg_of_ge (haddr.ge.trans' (le_max_right _ _)), haddr]
    rfl
  refine ⟨_, congrArg finish (forUpTo_stops hloop hfault (by omega)), rfl, fun _ _ => rfl, fun r => (hread r).trans ?_⟩
  have hcond : r.val < 4096 - s.i.toNat ↔ r ≤ x ∧ effAddr s r.val ≤ 4095 := by
    rw [Fin.le_def, effAddr]
    omega
  simp only [hcond]

/-! ### The bytes stored -/

/-- The digits of a byte are below 10, so they are stored as they are (R153). -/
theorem bcdDigit_toNat {b : Byte} {digit : Nat → Nat} (hhundreds : digit 0 = b.toNat / 100)
    (htens : digit 1 = b.toNat / 10 % 10) (hunits : digit 2 = b.toNat % 10) {k : Nat} (hk : k < 3) :
    (bcdDigit b k).toNat = digit k := by
  match k, hk with
  | 0, _ => simp only [bcdDigit, bcdHundreds, BitVec.toNat_ofNat]; omega
  | 1, _ => simp only [bcdDigit, bcdTens, BitVec.toNat_ofNat]; omega
  | 2, _ => simp only [bcdDigit, bcdUnits, BitVec.toNat_ofNat]; omega

theorem regOfNat_val (r : Reg) : regOfNat r.val = r := Fin.cast_val_eq_self r

/-- `V[k]` depends on the registers alone: no store changes what a later one stores. -/
theorem getV_congr {s t : State} (h : t.v = s.v) (r : Reg) : t.getV r = s.getV r := by
  rw [getV_eq, getV_eq, h]

/-! ### The statements -/

/-- Settles O28: three stores of the digits, all in memory or cut short at the first address above it. -/
theorem bcdStoresDigitsOrFaults : Obligations.BcdStoresDigitsOrFaults := by
  intro x s hwf
  refine ⟨decodeWord_patXkk_groupF 0x33 (by simp [decodeGroupF]),
    fun digit hhundreds htens hunits => ⟨fun hle => ?inside, fun hgt => ?above⟩⟩
  case inside =>
    obtain ⟨t, hexec, honly, hread⟩ := finish_storesFromI_of_le (n := 3) hwf
      (f := fun k _ => bcdDigit (s.getV x) k) (fun _ _ _ => rfl) (by omega)
    refine ⟨t, (exec_ldB_eq x s).trans hexec, honly, fun k hk => ?_⟩
    rw [hread k hk, bcdDigit_toNat hhundreds htens hunits hk]
  case above =>
    obtain ⟨t, hexec, ht, hregs, hmem, hread⟩ := finish_storesFromI_of_gt (n := 3) hwf
      (f := fun k _ => bcdDigit (s.getV x) k) (fun _ _ _ => rfl) three_pos (by omega)
    refine ⟨t, (exec_ldB_eq x s).trans hexec, ht, hregs, hmem, fun k hk haddr => ?_⟩
    rw [hread k hk (Nat.lt_succ_of_le haddr), bcdDigit_toNat hhundreds htens hunits hk]

/-- Settles O29: as O28, with `x + 1` stores of registers, which no store changes. -/
theorem storeRegistersOrFault : Obligations.StoreRegistersOrFault := by
  intro x s hwf
  have hbyte : ∀ k (t : State), t.v = s.v → t.getV (regOfNat k) = s.getV (regOfNat k) := fun k _ h => getV_congr h _
  refine ⟨decodeWord_patXkk_groupF 0x55 (by simp [decodeGroupF]), fun hle => ?inside, fun hgt => ?above⟩
  case inside =>
    obtain ⟨t, hexec, honly, hread⟩ := finish_storesFromI_of_le hwf hbyte (n := x.val + 1) (by omega)
    refine ⟨t, (exec_stRegs_eq x s).trans hexec, honly, fun r hr => ?_⟩
    rw [hread r.val (Nat.lt_succ_of_le hr), regOfNat_val]
  case above =>
    obtain ⟨t, hexec, ht, hregs, hmem, hread⟩ := finish_storesFromI_of_gt hwf hbyte x.val.succ_pos (by omega)
    refine ⟨t, (exec_stRegs_eq x s).trans hexec, ht, hregs, hmem, fun r hr haddr => ?_⟩
    rw [hread r.val (Nat.lt_succ_of_le hr) (Nat.lt_succ_of_le haddr), regOfNat_val]

/-- Settles O30: the word, then the loads all in memory or cut short. -/
theorem loadRegistersOrFault : Obligations.LoadRegistersOrFault := by
  intro x s
  exact ⟨decodeWord_patXkk_groupF 0x65 (by simp [decodeGroupF]), exec_ldRegs_of_le, exec_ldRegs_of_gt⟩

/-- Settles O26: the three words, and each instruction as one write of `I`. -/
theorem indexRegisterWrites : Obligations.IndexRegisterWrites := by
  intro nnn x s
  refine ⟨decodeWord_patNnn_ldI nnn, decodeWord_patXkk_groupF 0x1E (by simp [decodeGroupF]),
    decodeWord_patXkk_groupF 0x29 (by simp [decodeGroupF]), ?ldI, ?addI, ?ldF⟩
  case ldI => exact ⟨_, rfl, wordOfAddr_toNat nnn, onlyI_setI s _⟩
  case addI => exact ⟨_, rfl, add_wordOfByte_and_mask_toNat s.i (s.getV x), onlyI_setI s _⟩
  case ldF => exact ⟨_, rfl, glyphAddress_toNat (s.getV x), onlyI_setI s _⟩

end Sys2Proof.Proofs
end

section
/-! The display (44_display.md R165 to R168): CLS, the loops of `Dxyn` as the blit of its rows, and the blit away from
register 15 as a flip of the covered pixels. -/

namespace Sys2Proof.Proofs

open Sys2Proof.Machine Sys2Proof.Safety Sys2Proof.Laws

/-! ### CLS (R165) -/

/-- In a cleared framebuffer no pixel is lit. -/
theorem pixel_cleared (s : State) (r : Fin 32) (c : Fin 64) :
    ({ s with fb := Vector.replicate 32 0 } : State).pixel r c = false := by
  simp [State.pixel]

/-- Settles O32: `pixel_cleared`, and no other field is written. -/
theorem clsClearsEveryPixel : Obligations.ClsClearsEveryPixel :=
  fun s => ⟨rfl, _, rfl, pixel_cleared s, rfl, fun _ _ => rfl, fun _ _ => rfl⟩

/-! ### The word and the frame of `Dxyn` -/

theorem decodeWord_patXyn_drw (x y : Reg) (n : Nibble) : decodeWord (patXyn 0xD x y n.toNat) = .ok (.drw x y n) := by
  have hword : patXyn 0xD x y n.toNat = wordXyn 0xD x y n := patXyn_eq 0xD x y n
  simp [hword, decodeWord]

theorem onlyDisplay_trans {s t u : State} (hst : OnlyDisplay s t) (htu : OnlyDisplay t u) : OnlyDisplay s u := by
  obtain ⟨ht, hregs, hmem⟩ := hst
  obtain ⟨hu, hregs', hmem'⟩ := htu
  refine ⟨hu.trans (congrArg (fun a : State => { a with fb := u.fb, v := u.v }) ht), fun r hr => ?_, fun a ha => ?_⟩
  · exact (hregs' r hr).trans (hregs r hr)
  · exact (hmem' a ha).trans (hmem a ha)

theorem onlyDisplay_setV_vF (s : State) (b : Byte) : OnlyDisplay s (s.setV vF b) := by
  obtain ⟨-, hregs, hmem⟩ := onlyRegs_setV s b (x := vF) List.mem_cons_self
  exact ⟨rfl, hregs, hmem⟩

theorem onlyDisplay_flipPixel (s : State) (r : Fin 32) (c : Fin 64) : OnlyDisplay s (s.flipPixel r c) :=
  ⟨rfl, fun _ _ => rfl, fun _ _ => rfl⟩

/-! ### What a state shows while a sprite is drawn -/

/-- The sprite drawn from `s` has led to `t`, whose framebuffer and VF are the picture and the flag of `p`. -/
structure Shows (s : State) (p : Picture) (t : State) : Prop where
  display : OnlyDisplay s t
  pixel : ∀ r c, t.pixel r c = p.1 r c
  flag : t.getV vF = p.2

/-- A picture with one pixel inverted. -/
def flipAt (r₀ : Fin 32) (c₀ : Fin 64) (f : Fin 32 → Fin 64 → Bool) (r : Fin 32) (c : Fin 64) : Bool :=
  if r₀ = r ∧ c₀ = c then !f r c else f r c

/-- The row of the screen that row `row` of a sprite is drawn at, while the flag is `flag` (R167, D10). -/
def cellRow (y : Reg) (s : State) (flag : Byte) (row : Nat) : Fin 32 := Fin.ofNat 32 (coordinate s flag y + row)

/-- The column of the screen that column `col` of a sprite is drawn at, while the flag is `flag` (R167, D10). -/
def cellCol (x : Reg) (s : State) (flag : Byte) (col : Nat) : Fin 64 := Fin.ofNat 64 (coordinate s flag x + col)

theorem blitCell_of_clear (x y : Reg) {s : State} {row col : Nat} (p : Picture) (h : spriteAt s row col = false) :
    blitCell x y s p (row, col) = p := by
  simp [blitCell, h]

theorem blitCell_of_set (x y : Reg) {s : State} {row col : Nat} (p : Picture) (h : spriteAt s row col = true) :
    blitCell x y s p (row, col) = (flipAt (cellRow y s p.2 row) (cellCol x s p.2 col) p.1,
      if p.1 (cellRow y s p.2 row) (cellCol x s p.2 col) then 1 else p.2) := by
  have hrow (r : Fin 32) : cellRow y s p.2 row = r ↔ r.val = (coordinate s p.2 y + row) % 32 :=
    Fin.ext_iff.trans eq_comm
  have hcol (c : Fin 64) : cellCol x s p.2 col = c ↔ c.val = (coordinate s p.2 x + col) % 64 :=
    Fin.ext_iff.trans eq_comm
  have hpicture : flipAt (cellRow y s p.2 row) (cellCol x s p.2 col) p.1 = fun r c =>
      if r.val = (coordinate s p.2 y + row) % 32 ∧ c.val = (coordinate s p.2 x + col) % 64 then !p.1 r c else p.1 r c := by
    funext r c
    simp only [flipAt, hrow, hcol]
  rw [hpicture]
  exact if_pos h

namespace Shows

variable {s t : State} {p : Picture} (h : Shows s p t)
include h

theorem after_setV_vF (b : Byte) : Shows s (p.1, b) (t.setV vF b) where
  display := onlyDisplay_trans h.display (onlyDisplay_setV_vF t b)
  pixel := h.pixel
  flag := getV_setV_same t vF b

theorem after_flipPixel (r : Fin 32) (c : Fin 64) : Shows s (flipAt r c p.1, p.2) (t.flipPixel r c) where
  display := onlyDisplay_trans h.display (onlyDisplay_flipPixel t r c)
  pixel r' c' := by simp only [pixel_flipPixel, flipAt, h.pixel]
  flag := h.flag

/-- No sprite read sees what has been drawn: memory and `I` are those of the start. -/
theorem readByte_effAddr (row : Nat) : t.readByte (effAddr t row) = s.readByte (s.i.toNat + row) := by
  obtain ⟨ht, -, hmem⟩ := h.display
  rw [hmem _ List.not_mem_nil, ht, effAddr]

theorem effAddr_eq (row : Nat) : effAddr t row = effAddr s row := by
  obtain ⟨ht, -, -⟩ := h.display
  rw [ht]
  rfl

/-- A coordinate register read now is the flag so far for register 15, and else as at the start (D10). -/
theorem getV_toNat (x : Reg) : (t.getV x).toNat = coordinate s p.2 x := by
  obtain ⟨-, hregs, -⟩ := h.display
  unfold coordinate
  split_ifs with hx
  · rw [hx, ← h.flag]
  · rw [hregs x (by simpa using hx)]

theorem pixelRow_eq (y : Reg) (row : Nat) : pixelRow y row t = cellRow y s p.2 row := by
  rw [pixelRow, h.getV_toNat, cellRow]

theorem pixelCol_eq (x : Reg) (col : Nat) : pixelCol x col t = cellCol x s p.2 col := by
  rw [pixelCol, h.getV_toNat, cellCol]

/-- A set bit: VF first where the pixel is lit, then the flip. -/
theorem after_drawPixel (x y : Reg) {row col : Nat} (hset : spriteAt s row col = true) :
    Shows s (blitCell x y s p (row, col)) (drawPixel x y row col t) := by
  rw [blitCell_of_set x y p hset, drawPixel, h.pixelRow_eq, h.pixelCol_eq, h.pixel]
  split_ifs with hlit
  · exact (h.after_setV_vF 1).after_flipPixel _ _
  · exact h.after_flipPixel _ _

/-- One bit of the sprite is one cell of the blit. -/
theorem after_drawBit (x y : Reg) (row col : Nat) :
    Shows s (blitCell x y s p (row, col)) (drawBit x y (s.readByte (s.i.toNat + row)) row col t) := by
  have hbit : spriteBit (s.readByte (s.i.toNat + row)) col = spriteAt s row col := rfl
  rw [drawBit, hbit]
  split_ifs with hset
  · exact h.after_drawPixel x y hset
  · rwa [blitCell_of_clear x y p (Bool.eq_false_of_not_eq_true hset)]

/-- One row in memory is read, and then its 8 cells are drawn. -/
theorem after_drawRow (x y : Reg) {row : Nat} (hrow : effAddr s row < 4096) :
    ∃ t', drawRow x y row t = .ok t' ∧
      Shows s ((List.range 8).foldl (fun q col => blitCell x y s q (row, col)) p) t' := by
  have hread := memRead_of_lt t (h.effAddr_eq row ▸ hrow)
  refine ⟨_, by rw [drawRow, hread, h.readByte_effAddr], ?_⟩
  refine iterUpTo_inv (P := fun n t => Shows s ((List.range n).foldl (fun q col => blitCell x y s q (row, col)) p) t)
    h fun col t _ ht => ?_
  rw [List.range_succ, List.foldl_concat]
  exact ht.after_drawBit x y row col

/-- A row past the end of memory faults before any of it is drawn. -/
theorem drawRow_of_ge (x y : Reg) {row : Nat} (hrow : 4096 ≤ effAddr s row) :
    drawRow x y row t = .error (raise .outOfBoundsMemoryAccess (BitVec.ofNat 16 (effAddr s row)) t) := by
  have hread := memRead_of_ge t (h.effAddr_eq row ▸ hrow)
  rw [drawRow, hread, h.effAddr_eq]

end Shows

/-! ### `Dxyn` is the blit of its rows (R167) -/

theorem blit_succ (x y : Reg) (n : Nat) (s : State) :
    blit x y (n + 1) s = (List.range 8).foldl (fun q col => blitCell x y s q (n, col)) (blit x y n s) := by
  simp [blit, spriteCells, List.range_succ (n := n), List.foldl_append, List.foldl_map]

/-- Rows that lie in memory are drawn, from VF cleared. With `I` above 4095 there are none. -/
theorem forUpTo_drawRow_of_le (x y : Reg) {s : State} {n : Nat} (hn : n ≤ 4096 - s.i.toNat) :
    ∃ t, forUpTo (drawRow x y) n (s.setV vF 0) = .ok t ∧ Shows s (blit x y n s) t := by
  refine forUpTo_inv (P := fun n t => Shows s (blit x y n s) t) ?start fun row t hrow ht => ?row
  case start => exact ⟨onlyDisplay_setV_vF s 0, fun _ _ => rfl, getV_setV_same s vF 0⟩
  case row =>
    rw [blit_succ]
    exact ht.after_drawRow x y (by unfold effAddr; omega)

/-- `Dxyn` whose rows all lie in memory, or which has none. -/
theorem exec_drw_of_le (x y : Reg) {n : Nibble} {s : State} (hn : n = 0 ∨ s.i.toNat + n.toNat ≤ 4096) :
    ∃ t, exec (.drw x y n) s = .next t ∧ Shows s (blit x y n.toNat s) t := by
  have hrows : n.toNat ≤ 4096 - s.i.toNat := by
    rcases hn with rfl | hn
    · exact Nat.zero_le _
    · omega
  obtain ⟨t, hloop, ht⟩ := forUpTo_drawRow_of_le x y hrows
  exact ⟨t, congrArg finish hloop, ht⟩

/-- `Dxyn` that runs out of memory: the rows below 4096 are drawn, and the next one faults (D8). -/
theorem exec_drw_of_gt (x y : Reg) {n : Nibble} {s : State} (hpos : n ≠ 0) (hn : 4096 < s.i.toNat + n.toNat) :
    ∃ t, exec (.drw x y n) s = .next { t with fault := dataFault s } ∧ Shows s (blit x y (4096 - s.i.toNat) s) t := by
  obtain ⟨t, hloop, ht⟩ := forUpTo_drawRow_of_le x y (le_refl (4096 - s.i.toNat))
  have haddr := effAddr_first_above s
  have hfault := ht.drawRow_of_ge x y (haddr.ge.trans' (le_max_right _ _))
  have hrows : 0 < n.toNat := Nat.pos_of_ne_zero fun h => hpos (BitVec.eq_of_toNat_eq h)
  refine ⟨t, ?_, ht⟩
  rw [haddr] at hfault
  exact congrArg finish (forUpTo_stops hloop hfault (by omega))

/-- Settles O33: the rows all in memory, or cut short at the first address above it. -/
theorem drawIsTheBlitOfItsRows : Obligations.DrawIsTheBlitOfItsRows := by
  intro x y n s
  refine ⟨decodeWord_patXyn_drw x y n, fun hn => ?inside, fun ⟨hpos, hn⟩ => ?above⟩
  case inside =>
    obtain ⟨t, hexec, hshows⟩ := exec_drw_of_le x y hn
    exact ⟨t, hexec, hshows.display, hshows.pixel, hshows.flag⟩
  case above =>
    obtain ⟨t, hexec, hshows⟩ := exec_drw_of_gt x y hpos hn
    obtain ⟨ht, hregs, hmem⟩ := hshows.display
    have hframe := congrArg (fun a : State => { a with fault := dataFault s }) ht
    exact ⟨_, hexec, hframe, hregs, hmem, hshows.pixel, hshows.flag⟩

/-! ### Pictures that differ by a flip (R168) -/

/-- From `p` to `q` exactly the pixels of `under` flip, and the flag becomes 1 if one of them was lit. -/
structure FlipsUnder (under : Fin 32 → Fin 64 → Prop) (p q : Picture) : Prop where
  flipped : ∀ r c, under r c → q.1 r c = !p.1 r c
  kept : ∀ r c, ¬ under r c → q.1 r c = p.1 r c
  lit : (∃ r c, under r c ∧ p.1 r c = true) → q.2 = 1
  unlit : (¬ ∃ r c, under r c ∧ p.1 r c = true) → q.2 = p.2

namespace FlipsUnder

theorem congr {A B : Fin 32 → Fin 64 → Prop} {p q : Picture} (hAB : ∀ r c, B r c ↔ A r c) (h : FlipsUnder A p q) :
    FlipsUnder B p q := by
  have heq : B = A := funext fun r => funext fun c => propext (hAB r c)
  exact heq ▸ h

theorem refl (p : Picture) : FlipsUnder (fun _ _ => False) p p where
  flipped _ _ h := h.elim
  kept _ _ _ := rfl
  lit := fun ⟨_, _, h, _⟩ => h.elim
  unlit _ := rfl

/-- Flips of disjoint sets of pixels, one after the other: the second finds its pixels as they were at the start. -/
theorem trans {A B : Fin 32 → Fin 64 → Prop} {p q u : Picture} (hA : FlipsUnder A p q) (hB : FlipsUnder B q u)
    (hdisjoint : ∀ r c, A r c → ¬ B r c) : FlipsUnder (fun r c => A r c ∨ B r c) p u := by
  have hold : ∀ r c, B r c → q.1 r c = p.1 r c := fun r c hb => hA.kept r c fun ha => hdisjoint r c ha hb
  refine ⟨fun r c hrc => ?flipped, fun r c hrc => ?kept, fun ⟨r, c, hrc, hlit⟩ => ?lit, fun hnone => ?unlit⟩
  case flipped =>
    rcases hrc with ha | hb
    · rw [hB.kept r c (hdisjoint r c ha), hA.flipped r c ha]
    · rw [hB.flipped r c hb, hold r c hb]
  case kept =>
    rw [hB.kept r c (mt .inr hrc), hA.kept r c (mt .inl hrc)]
  case lit =>
    by_cases hlitB : ∃ r c, B r c ∧ q.1 r c = true
    · exact hB.lit hlitB
    · rcases hrc with ha | hb
      · rw [hB.unlit hlitB, hA.lit ⟨r, c, ha, hlit⟩]
      · exact absurd ⟨r, c, hb, (hold r c hb).trans hlit⟩ hlitB
  case unlit =>
    have hnoneA : ¬ ∃ r c, A r c ∧ p.1 r c = true := fun ⟨r, c, ha, hlit⟩ => hnone ⟨r, c, .inl ha, hlit⟩
    have hnoneB : ¬ ∃ r c, B r c ∧ q.1 r c = true := fun ⟨r, c, hb, hlit⟩ =>
      hnone ⟨r, c, .inr hb, (hold r c hb).symm.trans hlit⟩
    rw [hB.unlit hnoneB, hA.unlit hnoneA]

/-- One pixel, as a set bit draws it. -/
theorem single (r₀ : Fin 32) (c₀ : Fin 64) (p : Picture) :
    FlipsUnder (fun r c => r₀ = r ∧ c₀ = c) p (flipAt r₀ c₀ p.1, if p.1 r₀ c₀ then 1 else p.2) where
  flipped _ _ h := if_pos h
  kept _ _ h := if_neg h
  lit := by
    rintro ⟨_, _, ⟨rfl, rfl⟩, hlit⟩
    exact if_pos hlit
  unlit h := if_neg fun hlit => h ⟨r₀, c₀, ⟨rfl, rfl⟩, hlit⟩

/-- A cleared flag after a flip is the truth value of a lit pixel under it. -/
theorem flag_iff {under : Fin 32 → Fin 64 → Prop} {p q : Picture} (h : FlipsUnder under p q) (hp : p.2 = 0) :
    (q.2 = 1 ↔ ∃ r c, under r c ∧ p.1 r c = true) ∧ (q.2 = 0 ↔ ¬ ∃ r c, under r c ∧ p.1 r c = true) := by
  by_cases hlit : ∃ r c, under r c ∧ p.1 r c = true
  · simp [h.lit hlit, hlit]
  · simp [(h.unlit hlit).trans hp, hlit]

end FlipsUnder

/-! ### The blit away from register 15 -/

theorem coordinate_of_ne (s : State) (flag : Byte) {x : Reg} (hx : x ≠ 15) : coordinate s flag x = (s.getV x).toNat :=
  if_neg hx

/-- A sprite cell whose bit is set lies on this pixel. -/
def CellCovers (x y : Reg) (s : State) (cell : Nat × Nat) (r : Fin 32) (c : Fin 64) : Prop :=
  spriteAt s cell.1 cell.2 = true ∧
    r.val = ((s.getV y).toNat + cell.1) % 32 ∧ c.val = ((s.getV x).toNat + cell.2) % 64

/-- A cell of a sprite that is no larger than the screen. -/
def SmallCell (cell : Nat × Nat) : Prop := cell.1 < 32 ∧ cell.2 < 64

/-- No two cells of a sprite that is no larger than the screen wrap to one pixel. -/
theorem CellCovers.cell_unique {x y : Reg} {s : State} {r : Fin 32} {c : Fin 64} {a b : Nat × Nat}
    (ha : CellCovers x y s a r c) (hb : CellCovers x y s b r c) (hsa : SmallCell a) (hsb : SmallCell b) : a = b := by
  obtain ⟨-, hra, hca⟩ := ha
  obtain ⟨-, hrb, hcb⟩ := hb
  obtain ⟨hrow, hcol⟩ := hsa
  obtain ⟨hrow', hcol'⟩ := hsb
  exact Prod.ext (by omega) (by omega)

/-- One cell of the blit flips the pixel it covers, if any. -/
theorem blitCell_flipsUnder {x y : Reg} (hx : x ≠ 15) (hy : y ≠ 15) (s : State) (p : Picture) (cell : Nat × Nat) :
    FlipsUnder (CellCovers x y s cell) p (blitCell x y s p cell) := by
  obtain ⟨row, col⟩ := cell
  cases hset : spriteAt s row col with
  | false =>
    rw [blitCell_of_clear x y p hset]
    refine (FlipsUnder.refl p).congr fun r c => ?_
    simp [CellCovers, hset]
  | true =>
    rw [blitCell_of_set x y p hset]
    refine (FlipsUnder.single _ _ p).congr fun r c => ?_
    simp [CellCovers, hset, cellRow, cellCol, coordinate_of_ne s p.2 hx, coordinate_of_ne s p.2 hy, Fin.ext_iff, eq_comm]

/-- Cells without repetition flip the pixels they cover, each of them once. -/
theorem foldl_blitCell_flipsUnder {x y : Reg} (hx : x ≠ 15) (hy : y ≠ 15) (s : State) {cells : List (Nat × Nat)}
    (hnodup : cells.Nodup) (hsmall : ∀ cell ∈ cells, SmallCell cell) (p : Picture) :
    FlipsUnder (fun r c => ∃ cell ∈ cells, CellCovers x y s cell r c) p (cells.foldl (blitCell x y s) p) := by
  induction cells generalizing p with
  | nil => exact (FlipsUnder.refl p).congr (by simp)
  | cons cell cells ih =>
    obtain ⟨hnotin, hnodup'⟩ := List.nodup_cons.mp hnodup
    obtain ⟨hcell, hcells⟩ := List.forall_mem_cons.mp hsmall
    have hdisjoint : ∀ r c, CellCovers x y s cell r c → ¬ ∃ b ∈ cells, CellCovers x y s b r c :=
      fun r c ha ⟨b, hb, hcov⟩ => hnotin (ha.cell_unique hcov hcell (hcells b hb) ▸ hb)
    have hboth := (blitCell_flipsUnder hx hy s p cell).trans (ih hnodup' hcells _) hdisjoint
    exact hboth.congr fun r c => by simp only [List.mem_cons, exists_eq_or_imp]

theorem spriteCells_eq_product (n : Nat) : spriteCells n = List.range n ×ˢ List.range 8 := rfl

theorem mem_spriteCells {n : Nat} {cell : Nat × Nat} : cell ∈ spriteCells n ↔ cell.1 < n ∧ cell.2 < 8 := by
  rw [spriteCells_eq_product, List.mem_product, List.mem_range, List.mem_range]

theorem nodup_spriteCells (n : Nat) : (spriteCells n).Nodup := List.nodup_range.product List.nodup_range

theorem covers_iff {x y : Reg} {n : Nat} {s : State} {r : Fin 32} {c : Fin 64} :
    covers x y n s r c ↔ ∃ cell ∈ spriteCells n, CellCovers x y s cell r c := by
  simp only [covers, CellCovers, mem_spriteCells, Prod.exists, and_assoc]

/-- The blit of at most 32 rows flips the pixels its sprite covers. -/
theorem blit_flipsUnder {x y : Reg} (hx : x ≠ 15) (hy : y ≠ 15) {n : Nat} (hn : n ≤ 32) (s : State) :
    FlipsUnder (covers x y n s) (fun r c => s.pixel r c, 0) (blit x y n s) := by
  have hsmall : ∀ cell ∈ spriteCells n, SmallCell cell := fun cell hcell => by
    obtain ⟨hrow, hcol⟩ := mem_spriteCells.mp hcell
    exact ⟨by omega, by omega⟩
  exact (foldl_blitCell_flipsUnder hx hy s (nodup_spriteCells n) hsmall _).congr fun _ _ => covers_iff

/-- Settles O34: the drawing is the blit of its rows, and the blit is a flip of the covered pixels. -/
theorem drawFlipsExactlyTheCoveredPixels : Obligations.DrawFlipsExactlyTheCoveredPixels := by
  intro x y n s hx hy hn
  obtain ⟨t, hexec, hshows⟩ := exec_drw_of_le x y hn
  have hflips := blit_flipsUnder hx hy (n := n.toNat) (by omega) s
  obtain ⟨hone, hzero⟩ := hflips.flag_iff rfl
  rw [← hshows.flag] at hone hzero
  refine ⟨t, hexec, hshows.display, fun r c => ⟨fun hcov => ?_, fun hcov => ?_⟩, hone, hzero⟩
  · rw [hshows.pixel, hflips.flipped r c hcov]
  · rw [hshows.pixel, hflips.kept r c hcov]

end Sys2Proof.Proofs
end

section
/-! Keys and timers (45_input_and_timers.md R180 to R186): the words of the six instructions, the key skips with an index
in range and above it, the scan of `Fx0A`, and the copies between a register and a timer. -/

namespace Sys2Proof.Proofs

open Sys2Proof.Machine Sys2Proof.Safety Sys2Proof.Laws

/-! ### The words -/

/-- A word of group E is decoded by its low byte alone; the field left is its register. -/
theorem decodeWord_patXkk_groupE {x : Reg} (kk : Byte) {i : Instr} (h : decodeGroupE (wordXkk 0xE x kk) = .ok i) :
    decodeWord (patXkk 0xE x kk) = .ok i := by
  have hword : patXkk 0xE x kk = wordXkk 0xE x kk := patXkk_eq 0xE x kk
  simpa [hword, decodeWord] using h

/-! ### The key skips (R180, R181, R186) -/

/-- An index above 15 is recorded whole in `FAULT`, and nothing else changes (D5). -/
theorem keyIndex_of_gt {x : Reg} {s : State} (h : 15 < (s.getV x).toNat) :
    keyIndex x s = .error { s with fault := ⟨.keyIndexOutOfRange, BitVec.ofNat 16 (s.getV x).toNat⟩ } := by
  have hinfo : wordOfByte (s.getV x) = BitVec.ofNat 16 (s.getV x).toNat := (BitVec.ofNat_toNat 16 _).symm
  rw [keyIndex_of_ge x s (Nat.not_lt.mpr h), raise, hinfo]

/-- SKP with its index in range. -/
theorem exec_skp_of_le {x : Reg} {s : State} (h : (s.getV x).toNat ≤ 15) :
    exec (.skp x) s = .next (skipIf (s.keyDown (s.getV x).toNat) s) := by
  simp [exec, execSkp, keyIndex_of_lt x s (Nat.lt_succ_of_le h)]

/-- SKNP with its index in range. -/
theorem exec_sknp_of_le {x : Reg} {s : State} (h : (s.getV x).toNat ≤ 15) :
    exec (.sknp x) s = .next (skipIf (!s.keyDown (s.getV x).toNat) s) := by
  simp [exec, execSknp, keyIndex_of_lt x s (Nat.lt_succ_of_le h)]

/-- A skip taken exactly when the condition fails. -/
theorem skipIf_not_pc (c : Bool) (s : State) : (skipIf (!c) s).pc = if c = true then s.pc else s.pc + 2 := by
  cases c <;> rfl

/-- Settles O36: with the index in range each is a skip on the key's bit, and above it each ends where the index
operand raised. -/
theorem keySkipsOrFault : Obligations.KeySkipsOrFault := by
  intro x s
  refine ⟨decodeWord_patXkk_groupE 0x9E (by simp [decodeGroupE]), decodeWord_patXkk_groupE 0xA1 (by simp [decodeGroupE]),
    fun hle => ⟨?skp, ?sknp⟩, fun hgt => ⟨?skpFault, ?sknpFault⟩⟩
  case skp => exact ⟨_, exec_skp_of_le hle, skipIf_spec _ s⟩
  case sknp => exact ⟨_, exec_sknp_of_le hle, onlyPc_skipIf _ s, skipIf_not_pc _ s⟩
  case skpFault => simp [exec, execSkp, keyIndex_of_gt hgt]
  case sknpFault => simp [exec, execSknp, keyIndex_of_gt hgt]

/-! ### The wait for a key (R182) -/

/-- `Fx0A` with `k` the least key down. -/
theorem exec_ldVxK_of_least (x : Reg) {s : State} {k : Fin 16} (hdown : s.keyDown k = true)
    (hleast : ∀ j : Fin 16, j < k → s.keyDown j = false) :
    exec (.ldVxK x) s = .next (s.setV x (BitVec.ofNat 8 k.val)) := by
  simp [exec, execLdVxK, lowestKey_eq_some.mpr ⟨hdown, hleast⟩]

/-- `Fx0A` with every key up. -/
theorem exec_ldVxK_of_none (x : Reg) {s : State} (h : ∀ k : Fin 16, s.keyDown k = false) :
    exec (.ldVxK x) s = .next s.rewind := by
  simp [exec, execLdVxK, lowestKey_eq_none.mpr h]

/-- Settles O37: the scan finds the least key, whose index a byte holds, or it finds none. -/
theorem keyWaitLoadsTheLeastKey : Obligations.KeyWaitLoadsTheLeastKey := by
  intro x s
  refine ⟨decodeWord_patXkk_groupF 0x0A (by simp [decodeGroupF]), fun k hk hdown hleast => ?least, fun hup => ?none⟩
  case least =>
    have hexec := exec_ldVxK_of_least x (k := ⟨k, hk⟩) hdown fun j hj => hleast j hj
    refine ⟨_, hexec, ?_, onlyRegs_setV s _ List.mem_cons_self⟩
    rw [getV_setV_same, BitVec.toNat_ofNat, Nat.mod_eq_of_lt (hk.trans (by decide))]
  case none => exact exec_ldVxK_of_none x fun k => hup k k.isLt

/-! ### The timers (R183 to R185) -/

/-- `SOUND` is 1 exactly when `ST` is not 0 (R214). -/
theorem sound_eq_decide (s : State) : s.sound = decide (s.st ≠ 0) := by
  simp [State.sound, bne, beq_eq_decide]

/-- Settles O39: a register write for `Fx07`; the other two write one timer, and `SOUND` reads the `ST` written. -/
theorem timerCopies : Obligations.TimerCopies := by
  intro x s
  refine ⟨decodeWord_patXkk_groupF 0x07 (by simp [decodeGroupF]), decodeWord_patXkk_groupF 0x15 (by simp [decodeGroupF]),
    decodeWord_patXkk_groupF 0x18 (by simp [decodeGroupF]), ?ldVxDt, ?ldDtVx, ?ldStVx⟩
  case ldVxDt => exact ⟨_, rfl, getV_setV_same s x s.dt, onlyRegs_setV s _ List.mem_cons_self⟩
  case ldDtVx => exact ⟨_, rfl, rfl, fun _ _ => rfl, fun _ _ => rfl⟩
  case ldStVx => exact ⟨_, rfl, rfl, sound_eq_decide _, fun _ _ => rfl, fun _ _ => rfl⟩

end Sys2Proof.Proofs
end

section
/-! The host's events on the keys and the display (60_exceptions.md R214, R216, R218): the key bit a `SET_KEY` writes, and
the two outputs the host reads. -/

namespace Sys2Proof.Proofs

open Sys2Proof.Machine

/-! ### The key register (R216) -/

/-- `SET_KEY` in its domain is the write of its key. -/
theorem applyEvent_setKey_of_lt {k : Nat} (pressed : Bool) (s : State) (h : k < 16) :
    applyEvent (.setKey k pressed) s = .next (setKey ⟨k, h⟩ pressed s) := dif_pos h

/-- After the write the key written is `pressed`, and every other key is as before. -/
theorem keyDown_setKey (k : Fin 16) (pressed : Bool) (s : State) {j : Nat} (hj : j < 16) :
    (setKey k pressed s).keyDown j = if j = k.val then pressed else s.keyDown j := by
  cases pressed with
  | true =>
    have hbit : (setKey k true s).keyDown j = (s.keyDown j || decide (j = k.val)) := by
      simp [State.keyDown, setKey, hj]
    rw [hbit]
    by_cases h : j = k.val <;> simp [h]
  | false =>
    have hbit : (setKey k false s).keyDown j = (s.keyDown j && !decide (j = k.val)) := by
      simp [State.keyDown, setKey, hj]
    rw [hbit]
    by_cases h : j = k.val <;> simp [h]

/-- Settles O46: the step is the write of one key, an update of `KEYS` alone. -/
theorem setKeyWritesOneBit : Obligations.SetKeyWritesOneBit := by
  intro k pressed s rest hk hsched
  have hstep := (step_of_sched_cons hsched).trans (applyEvent_setKey_of_lt pressed _ hk)
  exact ⟨_, hstep, fun j hj => keyDown_setKey ⟨k, hk⟩ pressed { s with sched := rest } hj, rfl⟩

/-! ### What the host reads (R214, R218) -/

/-- `SOUND` is 1 exactly while `ST` is above 0 (R214). -/
theorem sound_iff_pos (s : State) : s.sound = true ↔ 0 < s.st.toNat := by
  have hzero : s.st = 0 ↔ s.st.toNat = 0 := BitVec.toNat_inj.symm
  rw [sound_eq_decide, decide_eq_true_iff, ne_eq, hzero, Nat.pos_iff_ne_zero]

/-- Settles O47: `READ_FB` answers the pixels and leaves the state with the event taken off, and `SOUND` tests `ST`. -/
theorem hostReads : Obligations.HostReads := fun s _ =>
  ⟨fun hsched => ⟨step_of_sched_cons hsched, rfl⟩, sound_iff_pos s⟩

end Sys2Proof.Proofs
end

section
/-! `RESET` (70_reset_and_hazards.md R230, 10_state.md R41): what the state it leaves shows through each accessor. The
machine first exists in such a state too, so one set of facts covers both. -/

namespace Sys2Proof.Proofs

open Sys2Proof.Machine

/-- A `RESET` of the machine as it first exists changes nothing. -/
theorem resetEvent_reset : resetEvent State.reset = State.reset := rfl

theorem getV_resetEvent (s : State) (x : Reg) : (resetEvent s).getV x = 0 := Vector.getElem_replicate x.isLt

/-- Memory lists nothing, so every address reads as the font table or 0 (R41, R51). -/
theorem readByte_resetEvent (s : State) (a : Nat) :
    (resetEvent s).readByte a = if a < 0x50 then Config.fontset.getD a 0 else 0 := rfl

theorem pixel_resetEvent (s : State) (r : Fin 32) (c : Fin 64) : (resetEvent s).pixel r c = false :=
  pixel_cleared (resetEvent s) r c

theorem keyDown_resetEvent (s : State) (k : Nat) : (resetEvent s).keyDown k = false := BitVec.getLsbD_zero

/-- Settles O43: the event's step is `resetEvent`, and the first state is a `resetEvent` as well. -/
theorem resetLeavesTheResetValues : Obligations.ResetLeavesTheResetValues := by
  intro s rest hsched
  refine ⟨resetEvent { s with sched := rest }, step_of_sched_cons hsched, rfl, fun u hu => ?_⟩
  obtain ⟨w, rfl⟩ : ∃ w, u = resetEvent w := by
    rcases hu with rfl | rfl
    · exact ⟨_, rfl⟩
    · exact ⟨_, resetEvent_reset.symm⟩
  exact ⟨getV_resetEvent w, rfl, rfl, rfl, readByte_resetEvent w, pixel_resetEvent w, keyDown_resetEvent w, rfl, rfl, rfl⟩

end Sys2Proof.Proofs
end

section
/-! The opcode map (30_encoding.md R84 to R90): encoding and decoding undo each other, and which words are refused. -/

namespace Sys2Proof.Proofs

open Sys2Proof.Safety Sys2Proof.Laws

/-! ### From an instruction to its word and back -/

/-- The word of a well-formed instruction has the fields it was built from, and they select its row (R84, R85). -/
theorem decodeWord_encode {i : Instr} (hwf : i.wf = true) : decodeWord (encode i) = .ok i := by
  cases i with
  | cls | ret => rfl
  | sys nnn =>
    obtain ⟨hcls, hret⟩ : nnn ≠ 0x0E0 ∧ nnn ≠ 0x0EE := by simpa [Instr.wf] using hwf
    have hword : encode (.sys nnn) = patNnn 0x0 nnn := (patNnn_eq 0x0 nnn).symm
    rw [hword, decodeWord_patNnn_sys hcls hret]
  | jp nnn | call nnn | ldI nnn | jpV0 nnn => simp [encode, decodeWord]
  | seImm x kk | sneImm x kk | ldImm x kk | addImm x kk | rnd x kk => simp [encode, decodeWord]
  | seReg x y | sneReg x y | drw x y n => simp [encode, decodeWord]
  | ldReg x y | orReg x y | andReg x y | xorReg x y | addReg x y | sub x y | shr x y | subn x y | shl x y =>
    simp [encode, decodeWord, decodeGroup8]
  | skp x | sknp x => simp [encode, decodeWord, decodeGroupE]
  | ldVxDt x | ldVxK x | ldDtVx x | ldStVx x | addI x | ldF x | ldB x | stRegs x | ldRegs x =>
    simp [encode, decodeWord, decodeGroupF]

/-- Settles O3: `decodeWord_encode`, and the two bytes of a word make that word again. -/
theorem decodeOfEncode : Obligations.DecodeOfEncode := by
  intro i hwf
  have hword := decodeWord_encode hwf
  exact ⟨hword, by simp [decode, encodeBytes, hword]⟩

/-! ### From a word to its instruction and back -/

/-- A word is the `gnnn` of its own fields (R82). -/
theorem wordNnn_of_fields {w : Word} {g : Nibble} (hg : (fieldGroup w).toNat = g.toNat) :
    wordNnn g (fieldNnn w) = w := by
  apply BitVec.eq_of_toNat_eq
  rw [fieldGroup_toNat] at hg
  rw [wordNnn_toNat, fieldNnn_toNat]
  omega

/-- A word is the `gxkk` of its own fields (R82). -/
theorem wordXkk_of_fields {w : Word} {g : Nibble} {kk : Byte} (hg : (fieldGroup w).toNat = g.toNat)
    (hkk : (fieldKk w).toNat = kk.toNat) : wordXkk g (fieldX w) kk = w := by
  apply BitVec.eq_of_toNat_eq
  rw [fieldGroup_toNat] at hg
  rw [fieldKk_toNat] at hkk
  rw [wordXkk_toNat, fieldX_val]
  omega

/-- A word is the `gxyn` of its own fields (R82). -/
theorem wordXyn_of_fields {w : Word} {g n : Nibble} (hg : (fieldGroup w).toNat = g.toNat)
    (hn : (fieldN w).toNat = n.toNat) : wordXyn g (fieldX w) (fieldY w) n = w := by
  apply BitVec.eq_of_toNat_eq
  rw [fieldGroup_toNat] at hg
  rw [fieldN_toNat] at hn
  rw [wordXyn_toNat, fieldX_val, fieldY_val]
  omega

/-- Group 0: the two fixed words, and otherwise the `SYS` of neither. -/
theorem encode_decodeGroup0 {w : Word} (hg : (fieldGroup w).toNat = 0) :
    (decodeGroup0 w).wf = true ∧ encode (decodeGroup0 w) = w := by
  have hword : wordNnn 0 (fieldNnn w) = w := wordNnn_of_fields hg
  unfold decodeGroup0
  split_ifs with hcls hret
  · exact ⟨rfl, hcls.symm⟩
  · exact ⟨rfl, hret.symm⟩
  · refine ⟨?_, hword⟩
    have hne : ∀ nnn, fieldNnn w = nnn → w = wordNnn 0 nnn := fun nnn h => h ▸ hword.symm
    simp only [Instr.wf, Bool.and_eq_true, bne_iff_ne]
    exact ⟨fun h => hcls (hne _ h), fun h => hret (hne _ h)⟩

/-- Group 8: the low nibble that selects an instruction is the one its word has. -/
theorem encode_of_decodeGroup8 {w : Word} {i : Instr} (hg : (fieldGroup w).toNat = 8) (h : decodeGroup8 w = .ok i) :
    i.wf = true ∧ encode i = w := by
  unfold decodeGroup8 at h
  split at h <;> cases h <;> exact ⟨rfl, wordXyn_of_fields hg ‹_›⟩

/-- Group E: the low byte that selects an instruction is the one its word has. -/
theorem encode_of_decodeGroupE {w : Word} {i : Instr} (hg : (fieldGroup w).toNat = 0xE) (h : decodeGroupE w = .ok i) :
    i.wf = true ∧ encode i = w := by
  unfold decodeGroupE at h
  split at h <;> cases h <;> exact ⟨rfl, wordXkk_of_fields hg ‹_›⟩

/-- Group F, as group E. -/
theorem encode_of_decodeGroupF {w : Word} {i : Instr} (hg : (fieldGroup w).toNat = 0xF) (h : decodeGroupF w = .ok i) :
    i.wf = true ∧ encode i = w := by
  unfold decodeGroupF at h
  split at h <;> cases h <;> exact ⟨rfl, wordXkk_of_fields hg ‹_›⟩

/-- Settles O4: by the group of the word; each branch rebuilds the word from the fields its format names. -/
theorem encodeOfDecode : Obligations.EncodeOfDecode := by
  intro w i h
  unfold decodeWord at h
  split at h
  case h_1 hg => cases h; exact encode_decodeGroup0 hg
  case h_6 hg | h_10 hg =>
    split_ifs at h with hn
    cases h
    exact ⟨rfl, wordXyn_of_fields hg (congrArg BitVec.toNat hn)⟩
  case h_9 hg => exact encode_of_decodeGroup8 hg h
  case h_14 hg => cases h; exact ⟨rfl, wordXyn_of_fields hg rfl⟩
  case h_15 hg => exact encode_of_decodeGroupE hg h
  case h_16 =>
    have hlt := (fieldGroup w).isLt
    exact encode_of_decodeGroupF (by grind) h
  case h_2 hg | h_3 hg | h_11 hg | h_12 hg => cases h; exact ⟨rfl, wordNnn_of_fields hg⟩
  case h_4 hg | h_5 hg | h_7 hg | h_8 hg | h_13 hg => cases h; exact ⟨rfl, wordXkk_of_fields hg rfl⟩

/-! ### The illegal words (R90) -/

/-- Group 8 refuses seven low nibbles. -/
theorem decodeGroup8_eq_error {w : Word} {e : DecodeError} : decodeGroup8 w = .error e ↔
    e = .unknownOpcode w ∧ w.toNat % 16 ∈ [0x8, 0x9, 0xA, 0xB, 0xC, 0xD, 0xF] := by
  rw [← fieldN_toNat]
  unfold decodeGroup8
  split
  case h_10 =>
    have hlt := (fieldN w).isLt
    have hlisted : (fieldN w).toNat ∈ [0x8, 0x9, 0xA, 0xB, 0xC, 0xD, 0xF] := by
      simp only [List.mem_cons, List.not_mem_nil, or_false]
      grind
    simp only [Except.error.injEq, hlisted, and_true, eq_comm]
  all_goals simp [*]

/-- Group E refuses every low byte but two. -/
theorem decodeGroupE_eq_error {w : Word} {e : DecodeError} : decodeGroupE w = .error e ↔
    e = .unknownOpcode w ∧ w.toNat % 256 ∉ [0x9E, 0xA1] := by
  rw [← fieldKk_toNat]
  unfold decodeGroupE
  split
  case h_3 =>
    have hlisted : (fieldKk w).toNat ∉ [0x9E, 0xA1] := by
      simp only [List.mem_cons, List.not_mem_nil, or_false]
      grind
    simp only [Except.error.injEq, hlisted, not_false_iff, and_true, eq_comm]
  all_goals simp [*]

/-- Group F refuses every low byte but nine. -/
theorem decodeGroupF_eq_error {w : Word} {e : DecodeError} : decodeGroupF w = .error e ↔
    e = .unknownOpcode w ∧ w.toNat % 256 ∉ [0x07, 0x0A, 0x15, 0x18, 0x1E, 0x29, 0x33, 0x55, 0x65] := by
  rw [← fieldKk_toNat]
  unfold decodeGroupF
  split
  case h_10 =>
    have hlisted : (fieldKk w).toNat ∉ [0x07, 0x0A, 0x15, 0x18, 0x1E, 0x29, 0x33, 0x55, 0x65] := by
      simp only [List.mem_cons, List.not_mem_nil, or_false]
      grind
    simp only [Except.error.injEq, hlisted, not_false_iff, and_true, eq_comm]
  all_goals simp [*]

/-- The five groups of words that are no instruction (R90). -/
def Illegal (w : Word) : Prop :=
  (w.toNat / 4096 = 5 ∧ w.toNat % 16 ≠ 0) ∨
  (w.toNat / 4096 = 8 ∧ w.toNat % 16 ∈ [0x8, 0x9, 0xA, 0xB, 0xC, 0xD, 0xF]) ∨
  (w.toNat / 4096 = 9 ∧ w.toNat % 16 ≠ 0) ∨
  (w.toNat / 4096 = 0xE ∧ w.toNat % 256 ∉ [0x9E, 0xA1]) ∨
  (w.toNat / 4096 = 0xF ∧ w.toNat % 256 ∉ [0x07, 0x0A, 0x15, 0x18, 0x1E, 0x29, 0x33, 0x55, 0x65])

/-- The decoder refuses the illegal words, and under no other name than that of the word. -/
theorem decodeWord_eq_error {w : Word} {e : DecodeError} :
    decodeWord w = .error e ↔ e = .unknownOpcode w ∧ Illegal w := by
  have hn : fieldN w = 0 ↔ w.toNat % 16 = 0 := by rw [← fieldN_toNat, ← BitVec.toNat_inj]; rfl
  unfold Illegal
  rw [← fieldGroup_toNat]
  unfold decodeWord
  split
  case h_6 hg | h_10 hg =>
    simp only [hn]
    split_ifs with h0 <;> simp [hg, h0, eq_comm (a := e)]
  case h_9 hg => simp [hg, decodeGroup8_eq_error]
  case h_15 hg => simp [hg, decodeGroupE_eq_error]
  case h_16 =>
    have hlt := (fieldGroup w).isLt
    have hg : (fieldGroup w).toNat = 0xF := by grind
    simp [hg, decodeGroupF_eq_error]
  all_goals simp [*]

/-- Settles O5: `decodeWord_eq_error` at the name of the word itself, and its first half at any name. -/
theorem illegalWordsAreThoseListed : Obligations.IllegalWordsAreThoseListed := by
  intro w
  exact ⟨decodeWord_eq_error.trans (and_iff_right rfl), fun _ h => (decodeWord_eq_error.mp h).1⟩

/-- Settles O1: each of the eight words is decoded by evaluation. -/
theorem sampleWordsDecode : Obligations.SampleWordsDecode := by
  unfold Obligations.SampleWordsDecode
  decide

end Sys2Proof.Proofs
end

section
/-! What an instruction can do (10_state.md section 13, 60_exceptions.md sections 1 and 2): the fields its form writes,
and the fault it may end in. The statements about all instructions are read off the one lemma here, `exec_ends`. -/

namespace Sys2Proof.Proofs

open Sys2Proof.Machine Sys2Proof.Safety Sys2Proof.Laws

/-! ### The effects -/

/-- Where an instruction other than RET can leave `pc`: a jump's target, past the next word, or back at its own word. -/
def IsTarget (s : State) (w : Word) : Prop := w.toNat ≤ 0x10FE ∨ w = s.pc + 2 ∨ w = s.pc - 2

/-- A memory that can result from stores at the listed addresses: those of a canonical memory keep the canonical form
and every other byte. -/
def StoresOnly (s : State) (stored : List Nat) (m : Memory) : Prop :=
  Memory.wf s.mem = true → Memory.wf m = true ∧ KeepsMem s { s with mem := m } stored

/-- Registers that agree outside those an instruction may write. -/
def KeptOutside (i : Instr) (s : State) (v : Vector Byte 16) : Prop := ∀ r : Reg, r ∉ regsWritten i → v[r] = s.getV r

/-- The state an instruction leaves, `FAULT` aside: one constructor for each set of fields that some form writes. -/
inductive Effect (i : Instr) (s : State) : State → Prop
  | nothing : Effect i s s
  | regs (v : Vector Byte 16) (hkept : KeptOutside i s v) : Effect i s { s with v := v }
  | pc (w : Word) (htarget : IsTarget s w) : Effect i s { s with pc := w }
  | index (w : Word) (hwrites : writesI i = true) (hle : w.toNat ≤ 0xFFF) : Effect i s { s with i := w }
  | mem (m : Memory) (hstores : StoresOnly s (addrsStored s i) m) : Effect i s { s with mem := m }
  | display (fb : Vector (BitVec 64) 32) (v : Vector Byte 16) (hwrites : writesFb i = true)
      (hkept : KeptOutside i s v) : Effect i s { s with fb := fb, v := v }
  | pop (hwrites : writesSp i = true) (hpos : 0 < s.sp.val) :
      Effect i s { s with pc := s.stack[s.sp.val - 1]'(by omega), sp := ⟨s.sp.val - 1, by omega⟩ }
  | push (w : Word) (hwrites : writesSp i = true) (hentry : entryWritten s i = some s.sp.val) (htarget : IsTarget s w)
      (hlt : s.sp.val < 16) : Effect i s { s with
        pc := w, sp := ⟨s.sp.val + 1, Nat.succ_lt_succ hlt⟩, stack := s.stack.set s.sp.val s.pc }
  | delay (b : Byte) (hwrites : writesDt i = true) : Effect i s { s with dt := b }
  | sound (b : Byte) (hwrites : writesSt i = true) : Effect i s { s with st := b }
  | random (v : Vector Byte 16) (hwrites : takesDraw i = true) (hkept : KeptOutside i s v) :
      Effect i s { s with v := v, draws := s.draws + 1 }

/-- How an instruction ends: with its effect, or with `FAULT` written after what took effect before (D8). -/
inductive Ends (i : Instr) (s : State) : State → Prop
  | through {t : State} (hquiet : ∀ f, ¬ raises s f i) (heffect : Effect i s t) : Ends i s t
  | raised {t : State} {f : FaultReg} (hraises : raises s f i) (heffect : Effect i s t) : Ends i s { t with fault := f }

/-- A register write is an effect of an instruction that may write that register. -/
theorem Effect.of_onlyRegs {i : Instr} {s t : State} (h : OnlyRegs s t (regsWritten i)) : Effect i s t := by
  obtain ⟨ht, hregs, -⟩ := h
  rw [ht]
  exact .regs t.v hregs

theorem Effect.of_setV {i : Instr} {s : State} {x : Reg} {b : Byte} (hx : x ∈ regsWritten i) :
    Effect i s (s.setV x b) :=
  .of_onlyRegs (onlyRegs_setV s b hx)

theorem Effect.of_skipIf {i : Instr} {s : State} (c : Bool) : Effect i s (skipIf c s) := by
  cases c with
  | false => exact .nothing
  | true => exact .pc (s.pc + 2) (.inr (.inl rfl))

/-- A picture drawn from `s` is an effect of an instruction that may write the framebuffer and VF. -/
theorem Effect.of_onlyDisplay {i : Instr} {s t : State} (hwrites : writesFb i = true) (hvF : vF ∈ regsWritten i)
    (h : OnlyDisplay s t) : Effect i s t := by
  obtain ⟨ht, hregs, -⟩ := h
  rw [ht]
  exact .display t.fb t.v hwrites fun r hr => hregs r fun hmem => hr (List.mem_singleton.mp hmem ▸ hvF)

/-! ### Ending with an effect, or raising -/

/-- The instruction answers a next state, and it ends there as the table says. -/
def Answers (i : Instr) (s : State) : Prop := ∃ t, exec i s = .next t ∧ Ends i s t

/-- An instruction of no row of the fault table. -/
theorem Answers.of_quiet {i : Instr} {s t : State} (hquiet : ∀ f, ¬ raises s f i) (h : exec i s = .next t)
    (heffect : Effect i s t) : Answers i s :=
  ⟨t, h, .through hquiet heffect⟩

/-- An instruction of a row of the fault table: `P` is when it raises, `f₀` what `FAULT` then holds. -/
theorem Answers.of_row {i : Instr} {s : State} {P : Prop} {f₀ : FaultReg} (hrow : ∀ f, raises s f i ↔ P ∧ f = f₀)
    (hin : ¬ P → ∃ t, exec i s = .next t ∧ Effect i s t)
    (hout : P → ∃ t, exec i s = .next { t with fault := f₀ } ∧ Effect i s t) : Answers i s := by
  by_cases hP : P
  · obtain ⟨t, hexec, heffect⟩ := hout hP
    exact ⟨_, hexec, .raised ((hrow f₀).mpr ⟨hP, rfl⟩) heffect⟩
  · obtain ⟨t, hexec, heffect⟩ := hin hP
    exact ⟨t, hexec, .through (fun f hf => hP ((hrow f).mp hf).1) heffect⟩

/-! ### Control transfer and the key skips -/

theorem isTarget_wordOfAddr (s : State) (nnn : Addr) : IsTarget s (wordOfAddr nnn) := by
  refine .inl ?_
  rw [wordOfAddr_toNat]
  omega

theorem isTarget_add (s : State) (nnn : Addr) (b : Byte) : IsTarget s (wordOfAddr nnn + wordOfByte b) := by
  refine .inl ?_
  rw [wordOfAddr_add_wordOfByte_toNat]
  omega

theorem ret_answers (s : State) : Answers .ret s :=
  .of_row (fun _ => Iff.rfl)
    (fun h => ⟨_, exec_ret_of_pos s (Nat.pos_of_ne_zero h), .pop rfl (Nat.pos_of_ne_zero h)⟩)
    fun h => ⟨s, exec_ret_of_empty s h, .nothing⟩

theorem call_answers (nnn : Addr) (s : State) : Answers (.call nnn) s :=
  .of_row (fun _ => Iff.rfl)
    (fun h => ⟨_, exec_call_of_lt nnn s (by omega), .push _ rfl rfl (isTarget_wordOfAddr s nnn) _⟩)
    fun h => ⟨s, exec_call_of_full nnn s h, .nothing⟩

/-- SKP with its index above 15. -/
theorem exec_skp_of_gt {x : Reg} {s : State} (h : 15 < (s.getV x).toNat) :
    exec (.skp x) s = .next { s with fault := ⟨.keyIndexOutOfRange, BitVec.ofNat 16 (s.getV x).toNat⟩ } := by
  simp [exec, execSkp, keyIndex_of_gt h]

/-- SKNP with its index above 15. -/
theorem exec_sknp_of_gt {x : Reg} {s : State} (h : 15 < (s.getV x).toNat) :
    exec (.sknp x) s = .next { s with fault := ⟨.keyIndexOutOfRange, BitVec.ofNat 16 (s.getV x).toNat⟩ } := by
  simp [exec, execSknp, keyIndex_of_gt h]

theorem skp_answers (x : Reg) (s : State) : Answers (.skp x) s :=
  .of_row (fun _ => Iff.rfl) (fun h => ⟨_, exec_skp_of_le (Nat.not_lt.mp h), .of_skipIf _⟩)
    fun h => ⟨s, exec_skp_of_gt h, .nothing⟩

theorem sknp_answers (x : Reg) (s : State) : Answers (.sknp x) s :=
  .of_row (fun _ => Iff.rfl) (fun h => ⟨_, exec_sknp_of_le (Nat.not_lt.mp h), .of_skipIf _⟩)
    fun h => ⟨s, exec_sknp_of_gt h, .nothing⟩

/-- `Fx0A` writes the least key's index, or goes back to its own word. -/
theorem ldVxK_answers (x : Reg) (s : State) : Answers (.ldVxK x) s := by
  cases hkey : s.lowestKey with
  | none => exact .of_quiet (fun _ => id) (exec_ldVxK_of_none x (lowestKey_eq_none.mp hkey)) (.pc _ (.inr (.inr rfl)))
  | some k =>
    obtain ⟨hdown, hleast⟩ := lowestKey_eq_some.mp hkey
    exact .of_quiet (fun _ => id) (exec_ldVxK_of_least x hdown hleast) (.of_setV List.mem_cons_self)

/-! ### Transfers from `I` on -/

/-- Stores that lie in memory, of any bytes: memory alone changes. With `I` above 4095 there are none. -/
theorem storesFromI_stores (f : Nat → State → Byte) {n : Nat} {s : State} (hn : n ≤ 4096 - s.i.toNat) :
    ∃ m, storesFromI f n s = .ok { s with mem := m } ∧ StoresOnly s (addrsFromI s n) m := by
  have hloop : ∃ t, storesFromI f n s = .ok t ∧ ∃ m, t = { s with mem := m } ∧ StoresOnly s (addrsFromI s n) m := by
    refine forUpTo_inv (P := fun k t => ∃ m, t = { s with mem := m } ∧ StoresOnly s (addrsFromI s k) m)
      ⟨s.mem, rfl, fun hwf => ⟨hwf, fun _ _ => rfl⟩⟩ fun k t hk ⟨m, ht, hm⟩ => ?_
    subst ht
    have haddr : effAddr s k < 4096 := by unfold effAddr; omega
    refine ⟨_, memWrite_of_lt _ _ haddr, _, rfl, fun hwf => ?_⟩
    obtain ⟨hwfm, hkept⟩ := hm hwf
    refine ⟨Memory.wf_write hwfm _ haddr, fun a ha => ?_⟩
    rw [notMem_addrsFromI] at ha
    have hne : a ≠ effAddr s k := by unfold effAddr; omega
    exact (Memory.read_write hwfm _ _ a).trans ((if_neg hne).trans (hkept a (notMem_addrsFromI.mpr (by omega))))
  obtain ⟨_, hrun, m, rfl, hstores⟩ := hloop
  exact ⟨m, hrun, hstores⟩

/-- Fewer stores are also stores at more addresses. -/
theorem StoresOnly.mono {s : State} {k n : Nat} {m : Memory} (h : StoresOnly s (addrsFromI s k) m) (hkn : k ≤ n) :
    StoresOnly s (addrsFromI s n) m := by
  intro hwf
  obtain ⟨hwfm, hkept⟩ := h hwf
  refine ⟨hwfm, fun a ha => hkept a ?_⟩
  rw [notMem_addrsFromI] at ha ⊢
  omega

/-- `Fx33` and `Fx55`: the stores all in memory, or cut short at the first address above it (D8). -/
theorem stores_answer {i : Instr} {s : State} {f : Nat → State → Byte} {n : Nat}
    (hexec : exec i s = finish (storesFromI f n s)) (hstored : addrsStored s i = addrsFromI s n)
    (hrow : ∀ g, raises s g i ↔ 4096 < s.i.toNat + n ∧ g = dataFault s) (hpos : 0 < n) : Answers i s := by
  refine .of_row hrow (fun hin => ?inside) fun hout => ?above
  case inside =>
    obtain ⟨m, hloop, hstores⟩ := storesFromI_stores f (n := n) (s := s) (by omega)
    exact ⟨_, hexec.trans (congrArg finish hloop), .mem m (hstored ▸ hstores)⟩
  case above =>
    obtain ⟨m, hloop, hstores⟩ := storesFromI_stores f (le_refl (4096 - s.i.toNat))
    have haddr : effAddr { s with mem := m } (4096 - s.i.toNat) = max s.i.toNat 4096 := effAddr_first_above s
    have hfault : memWrite (effAddr { s with mem := m } (4096 - s.i.toNat)) (f (4096 - s.i.toNat) { s with mem := m })
        { s with mem := m } = .error { s with mem := m, fault := dataFault s } := by
      rw [haddr]
      exact memWrite_of_ge _ _ (le_max_right _ _)
    exact ⟨{ s with mem := m }, hexec.trans (congrArg finish (forUpTo_stops hloop hfault (by omega))),
      .mem m (hstored ▸ hstores.mono (by omega))⟩

theorem notMem_regsWritten_ldRegs {x r : Reg} (h : r ∉ regsWritten (.ldRegs x)) : ¬ r ≤ x := fun hle =>
  h (List.mem_map.mpr ⟨r.val, List.mem_range.mpr (Nat.lt_succ_of_le hle), regOfNat_val r⟩)

theorem ldRegs_answers (x : Reg) (s : State) : Answers (.ldRegs x) s := by
  refine .of_row (fun _ => Iff.rfl) (fun hin => ?inside) fun hout => ?above
  case inside =>
    obtain ⟨t, hexec, ht, -, hread⟩ := exec_ldRegs_of_le (x := x) (s := s) (by omega)
    refine ⟨_, ht ▸ hexec, .regs t.v fun r hr => (hread r).trans (if_neg (notMem_regsWritten_ldRegs hr))⟩
  case above =>
    obtain ⟨t, hexec, ht, -, hread⟩ := exec_ldRegs_of_gt (x := x) (s := s) (by omega)
    refine ⟨{ s with v := t.v }, hexec.trans (congrArg _ ht), .regs t.v fun r hr => (hread r).trans (if_neg ?_)⟩
    exact fun h => notMem_regsWritten_ldRegs hr h.1

theorem drw_answers (x y : Reg) (n : Nibble) (s : State) : Answers (.drw x y n) s := by
  have hzero : n = 0 ↔ n.toNat = 0 := BitVec.toNat_inj.symm
  refine .of_row (P := 0 < n.toNat ∧ 4096 < s.i.toNat + n.toNat) (fun _ => and_assoc.symm) (fun hin => ?inside)
    fun ⟨hpos, hout⟩ => ?above
  case inside =>
    obtain ⟨t, hexec, hshows⟩ := exec_drw_of_le x y (n := n) (s := s) (by rw [hzero]; omega)
    exact ⟨t, hexec, .of_onlyDisplay rfl List.mem_cons_self hshows.display⟩
  case above =>
    obtain ⟨t, hexec, hshows⟩ := exec_drw_of_gt x y (mt hzero.mp hpos.ne') hout
    exact ⟨t, hexec, .of_onlyDisplay rfl List.mem_cons_self hshows.display⟩

/-! ### Every instruction -/

/-- Every instruction answers a next state, and ends there as the write column and the fault table say. -/
theorem exec_ends (i : Instr) (s : State) : Answers i s := by
  cases i with
  | cls => exact .of_quiet (fun _ => id) rfl (.display _ s.v rfl fun _ _ => rfl)
  | ret => exact ret_answers s
  | call nnn => exact call_answers nnn s
  | jp nnn => exact .of_quiet (fun _ => id) rfl (.pc _ (isTarget_wordOfAddr s nnn))
  | jpV0 nnn => exact .of_quiet (fun _ => id) rfl (.pc _ (isTarget_add s nnn _))
  | seImm x kk | sneImm x kk | seReg x y | sneReg x y => exact .of_quiet (fun _ => id) rfl (.of_skipIf _)
  | ldImm x kk | addImm x kk | ldReg x y | orReg x y | andReg x y | xorReg x y | ldVxDt x =>
    exact .of_quiet (fun _ => id) rfl (.of_setV List.mem_cons_self)
  | addReg x y | sub x y | shr x y | subn x y | shl x y =>
    exact .of_quiet (fun _ => id) rfl (.of_onlyRegs (onlyRegs_flag_then_result s _ _ x))
  | ldI nnn => exact .of_quiet (fun _ => id) rfl (.index _ rfl (by rw [wordOfAddr_toNat]; omega))
  | addI x => exact .of_quiet (fun _ => id) rfl (.index _ rfl (by rw [add_wordOfByte_and_mask_toNat]; omega))
  | ldF x => exact .of_quiet (fun _ => id) rfl (.index _ rfl (by rw [glyphAddress_toNat]; omega))
  | rnd x kk =>
    obtain ⟨-, hkept, -⟩ := onlyRegs_setV s (Config.draw8 s.draws &&& kk) (List.mem_singleton_self x)
    exact .of_quiet (fun _ => id) rfl (.random _ rfl hkept)
  | drw x y n => exact drw_answers x y n s
  | skp x => exact skp_answers x s
  | sknp x => exact sknp_answers x s
  | ldVxK x => exact ldVxK_answers x s
  | ldDtVx x => exact .of_quiet (fun _ => id) rfl (.delay _ rfl)
  | ldStVx x => exact .of_quiet (fun _ => id) rfl (.sound _ rfl)
  | ldB x => exact stores_answer (exec_ldB_eq x s) rfl (fun _ => Iff.rfl) three_pos
  | stRegs x => exact stores_answer (exec_stRegs_eq x s) rfl (fun _ => Iff.rfl) x.val.succ_pos
  | ldRegs x => exact ldRegs_answers x s
  | sys nnn => exact .of_quiet (fun _ => id) rfl .nothing

/-- Where an instruction answers, it ends as the tables say. -/
theorem ends_of_exec {i : Instr} {s t : State} (h : exec i s = .next t) : Ends i s t := by
  obtain ⟨t', h', hends⟩ := exec_ends i s
  cases h.symm.trans h'
  exact hends

/-! ### The frame (O48) and the fault table (O42) -/

/-- What the write columns leave alone, field by field (10_state.md section 13). -/
structure Frame (i : Instr) (s t : State) : Prop where
  regs : KeepsRegs s t (regsWritten i) := by exact fun _ _ => rfl
  mem : Memory.wf s.mem = true → KeepsMem s t (addrsStored s i) := by exact fun _ _ _ => rfl
  index : writesI i = false → t.i = s.i := by exact fun _ => rfl
  fb : writesFb i = false → t.fb = s.fb := by exact fun _ => rfl
  sp : writesSp i = false → t.sp = s.sp := by exact fun _ => rfl
  stack : ∀ (k : Nat) (h : k < 16), entryWritten s i ≠ some k → t.stack[k]'h = s.stack[k]'h := by
    exact fun _ _ _ => rfl
  dt : writesDt i = false → t.dt = s.dt := by exact fun _ => rfl
  st : writesSt i = false → t.st = s.st := by exact fun _ => rfl
  draws : takesDraw i = false → t.draws = s.draws := by exact fun _ => rfl
  keys : t.keys = s.keys := by rfl
  sched : t.sched = s.sched := by rfl

/-- `FAULT` is in no write column. -/
theorem Frame.with_fault {i : Instr} {s t : State} (h : Frame i s t) (f : FaultReg) :
    Frame i s { t with fault := f } where
  regs := h.regs
  mem := h.mem
  index := h.index
  fb := h.fb
  sp := h.sp
  stack := h.stack
  dt := h.dt
  st := h.st
  draws := h.draws
  keys := h.keys
  sched := h.sched

theorem Effect.frame {i : Instr} {s t : State} (h : Effect i s t) : Frame i s t := by
  cases h with
  | nothing | pc => exact {}
  | regs v hkept => exact { regs := hkept }
  | index w hwrites => exact { index := by simp [hwrites] }
  | mem m hstores => exact { mem := fun hwf => (hstores hwf).2 }
  | display fb v hwrites hkept => exact { regs := hkept, fb := by simp [hwrites] }
  | pop hwrites => exact { sp := by simp [hwrites] }
  | push w hwrites hentry htarget hlt =>
    refine { sp := by simp [hwrites], stack := fun k hk hne => Vector.getElem_set_ne hlt hk fun heq => hne ?_ }
    rw [hentry, heq]
  | delay b hwrites => exact { dt := by simp [hwrites] }
  | sound b hwrites => exact { st := by simp [hwrites] }
  | random v hwrites hkept => exact { regs := hkept, draws := by simp [hwrites] }

theorem Ends.frame {i : Instr} {s t : State} (h : Ends i s t) : Frame i s t := by
  cases h with
  | through _ heffect => exact heffect.frame
  | raised _ heffect => exact heffect.frame.with_fault _

/-- Settles O48: the frame of each effect, which a fault does not touch. -/
theorem frameOfEveryInstruction : Obligations.FrameOfEveryInstruction := by
  intro i s t hwf hexec
  have h := (ends_of_exec hexec).frame
  exact ⟨h.regs, h.mem hwf, h.index, h.fb, h.sp, h.stack, h.dt, h.st, h.draws, h.keys, h.sched⟩

theorem Effect.fault_eq {i : Instr} {s t : State} (h : Effect i s t) : t.fault = s.fault := by
  cases h <;> rfl

/-- The fault table gives a state and an instruction one value at most. -/
theorem raises_unique {s : State} {f g : FaultReg} {i : Instr} (hf : raises s f i) (hg : raises s g i) : f = g := by
  unfold raises at hf hg
  split at hf
  case h_5 =>
    obtain ⟨-, -, hf⟩ := hf
    obtain ⟨-, -, hg⟩ := hg
    exact hf.trans hg.symm
  case h_9 => exact hf.elim
  all_goals
    obtain ⟨-, hf⟩ := hf
    obtain ⟨-, hg⟩ := hg
    exact hf.trans hg.symm

/-- Settles O42: `FAULT` is untouched by an effect, and where it is written it is the one value of the table. -/
theorem whoRaisesWhat : Obligations.WhoRaisesWhat := by
  intro i s t hexec
  cases ends_of_exec hexec with
  | through hquiet heffect => exact ⟨fun f hf => absurd hf (hquiet f), fun _ => heffect.fault_eq⟩
  | raised hraises _ => exact ⟨fun f hf => raises_unique hraises hf, fun hnone => absurd ⟨_, hraises⟩ hnone⟩

end Sys2Proof.Proofs
end

section
/-! The state invariant (10_state.md R26, R27, R33, 60_exceptions.md R200): reset meets it, and every event keeps it. -/

namespace Sys2Proof.Proofs

open Sys2Proof.Machine Sys2Proof.Safety Sys2Proof.Laws

/-- A fetched instruction is executed with `pc` past its word, which lay in memory (R100). -/
structure PcAfterFetch (s : State) : Prop where
  two_le : 2 ≤ s.pc.toNat
  le : s.pc.toNat ≤ 0x1000

theorem pc_add_two_toNat {s : State} (h : s.pc.toNat ≤ 0x10FE) : (s.pc + 2).toNat = s.pc.toNat + 2 := by
  rw [BitVec.toNat_add]
  exact Nat.mod_eq_of_lt (by simp; omega)

theorem pcAfterFetch_advance {s : State} (h : s.pc.toNat ≤ 4094) : PcAfterFetch s.advance := by
  have hpc := pc_add_two_toNat (s := s) (by omega)
  exact ⟨by rw [advance_pc, hpc]; omega, by rw [advance_pc, hpc]; omega⟩

/-- From a fetched instruction `pc` cannot go above 0x10FE (R26). -/
theorem IsTarget.le {s : State} {w : Word} (hw : IsTarget s w) (hpc : PcAfterFetch s) : w.toNat ≤ 0x10FE := by
  obtain ⟨htwo, hle⟩ := hpc
  rcases hw with hw | rfl | rfl
  · exact hw
  · rw [pc_add_two_toNat (by omega)]
    omega
  · bv_omega

/-! ### Instructions -/

/-- `FAULT` aside, an instruction keeps the invariant: no target is above 0x10FE, and CALL pushes a `pc` after a fetch
(R33). -/
theorem Effect.keeps_inv {i : Instr} {s t : State} (hinv : Inv s) (hpc : PcAfterFetch s) (h : Effect i s t) :
    Inv t := by
  cases h with
  | nothing | regs | display | delay | sound | random => exact { hinv with }
  | pc w htarget => exact { hinv with pc := htarget.le hpc }
  | index w hwrites hle => exact { hinv with i := hle }
  | mem m hstores => exact { hinv with mem := (hstores hinv.mem).1 }
  | pop hwrites hpos =>
    obtain ⟨-, htop⟩ := hinv.stack (s.sp.val - 1) (by omega) (by omega)
    exact { hinv with
      pc := htop.trans (by decide)
      stack := fun k hk hlive => hinv.stack k hk (hlive.trans_le (Nat.sub_le _ _)) }
  | push w hwrites hentry htarget hlt =>
    refine { hinv with pc := htarget.le hpc, stack := fun k hk hlive => ?_ }
    rcases Nat.lt_succ_iff_lt_or_eq.mp hlive with hold | rfl
    · have hkept := Vector.getElem_set_ne (xs := s.stack) (x := s.pc) hlt hk hold.ne'
      rw [hkept]
      exact hinv.stack k hk hold
    · rw [Vector.getElem_set_self]
      exact ⟨hpc.two_le, hpc.le⟩

/-- What an instruction records is in the table's range (R200). -/
theorem faultInv_of_raises {i : Instr} {s : State} {f : FaultReg} (hinv : Inv s) (hpc : PcAfterFetch s)
    (h : raises s f i) : FaultInv f := by
  have hdata : FaultInv (dataFault s) := by
    have hi := hinv.i
    have hinfo : (BitVec.ofNat 16 (max s.i.toNat 4096)).toNat = 4096 := by
      rw [max_eq_right (by omega)]
      rfl
    exact ⟨hinfo.ge, hinfo.le.trans (by decide)⟩
  unfold raises at h
  split at h
  case h_1 =>
    obtain ⟨-, rfl⟩ := h
    rfl
  case h_2 =>
    obtain ⟨-, rfl⟩ := h
    exact ⟨hpc.two_le, hpc.le⟩
  case h_3 x | h_4 x =>
    obtain ⟨hgt, rfl⟩ := h
    have hinfo : (BitVec.ofNat 16 (s.getV x).toNat).toNat = (s.getV x).toNat := by simp; omega
    exact ⟨hinfo.symm ▸ hgt, hinfo.symm ▸ Nat.le_of_lt_succ (s.getV x).isLt⟩
  case h_5 =>
    obtain ⟨-, -, rfl⟩ := h
    exact hdata
  case h_9 => exact h.elim
  all_goals
    obtain ⟨-, rfl⟩ := h
    exact hdata

theorem exec_keeps_inv {i : Instr} {s t : State} (hinv : Inv s) (hpc : PcAfterFetch s) (h : exec i s = .next t) :
    Inv t := by
  cases ends_of_exec h with
  | through _ heffect => exact heffect.keeps_inv hinv hpc
  | raised hraises heffect => exact { heffect.keeps_inv hinv hpc with fault := faultInv_of_raises hinv hpc hraises }

/-! ### Events -/

theorem cycle_keeps_inv {s t : State} (hinv : Inv s) (h : cycle s = .next t) : Inv t := by
  by_cases hrun : Runs s
  · rcases Nat.lt_or_ge 4094 s.pc.toNat with habove | hin
    · cases (cycle_of_fetch_fault hrun habove).symm.trans h
      have hpc := hinv.pc
      have hinfo : (BitVec.ofNat 16 (max s.pc.toNat 4096)).toNat = max s.pc.toNat 4096 := by simp; omega
      exact { hinv with fault := ⟨hinfo.symm ▸ le_max_right _ _, hinfo.symm ▸ max_le hpc (by decide)⟩ }
    · have hpc := pcAfterFetch_advance hin
      have hinv' : Inv s.advance := { hinv with pc := hpc.le.trans (by decide) }
      rw [cycle_of_fetch hrun hin] at h
      cases hdecode : decodeWord (wordAt s s.pc.toNat) with
      | ok i =>
        rw [runWord_of_ok _ hdecode] at h
        exact exec_keeps_inv hinv' hpc h
      | error e =>
        obtain ⟨rfl, -⟩ := decodeWord_eq_error.mp hdecode
        rw [runWord_of_error _ hdecode] at h
        cases h
        exact { hinv' with fault := hdecode }
  · cases (cycle_of_halted hrun).symm.trans h
    exact hinv

theorem inv_resetEvent (s : State) : Inv (resetEvent s) where
  mem := State.reset_mem_wf
  i := Nat.zero_le _
  pc := show 0x200 ≤ 0x10FE by decide
  stack := fun _ _ hlive => absurd hlive (Nat.not_lt_zero _)
  fault := rfl

/-- `SET_KEY` outside its domain has no meaning (R216). -/
theorem applyEvent_setKey_of_ge {k : Nat} (pressed : Bool) (s : State) (h : ¬ k < 16) :
    applyEvent (.setKey k pressed) s = .refused (.setKeyOutsideDomain k) := dif_neg h

theorem applyEvent_keeps_inv {e : Event} {s t : State} (hinv : Inv s) (h : applyEvent e s = .next t) : Inv t := by
  cases e with
  | cycle => exact cycle_keeps_inv hinv h
  | reset =>
    cases h
    exact inv_resetEvent s
  | load rom =>
    rcases Nat.lt_or_ge Config.romMax rom.length with hgt | hle
    · cases (applyEvent_load_of_gt s hgt).symm.trans h
      exact hinv
    · cases (applyEvent_load_of_le s hle).symm.trans h
      exact { hinv with mem := Memory.wf_writeList hinv.mem rom (Nat.add_le_add_left hle 0x200) }
  | setKey k pressed =>
    by_cases hk : k < 16
    · cases (applyEvent_setKey_of_lt pressed s hk).symm.trans h
      exact { hinv with }
    · cases (applyEvent_setKey_of_ge pressed s hk).symm.trans h
  | tick =>
    cases h
    exact { hinv with }
  | readFb =>
    cases h
    exact hinv

/-- Settles O49: the schedule is no part of the invariant, so a step keeps it as its event does. -/
theorem everyStepKeepsInv : Obligations.EveryStepKeepsInv := by
  intro s t hinv h
  rcases step_cases s with ⟨-, hstep⟩ | ⟨e, rest, -, hstep⟩
  · exact cycle_keeps_inv hinv (hstep.symm.trans h)
  · exact applyEvent_keeps_inv (s := { s with sched := rest }) { hinv with } (hstep.symm.trans h)

/-- Settles O50: the machine first exists as a `RESET` leaves it. -/
theorem resetMeetsInv : Obligations.ResetMeetsInv := by
  have h := inv_resetEvent State.reset
  rwa [resetEvent_reset] at h

end Sys2Proof.Proofs
end

section
/-! What the instructions do not read (10_state.md sections 5, 7 and 9): the framebuffer away from the display, ST, and
stack entries that are not live. One lemma, `exec_overlay`, changes all three at once. -/

namespace Sys2Proof.Proofs

open Sys2Proof.Machine Sys2Proof.Safety Sys2Proof.Laws

/-! ### Another picture, another ST, another stack -/

/-- A change of the picture, of `ST` and of the stack entries. -/
structure Overlay where
  fb : Vector (BitVec 64) 32 → Vector (BitVec 64) 32 := id
  st : Byte → Byte := id
  stack : Vector Word 16 → Vector Word 16 := id

/-- The state with that change made. -/
def Overlay.apply (o : Overlay) (s : State) : State :=
  { s with fb := o.fb s.fb, st := o.st s.st, stack := o.stack s.stack }

section Operations

variable (o : Overlay)

theorem skipIf_overlay (c : Bool) (s : State) : skipIf c (o.apply s) = o.apply (skipIf c s) := by
  cases c <;> rfl

theorem memWrite_overlay (a : Nat) (b : Byte) (s : State) :
    memWrite a b (o.apply s) = onEnd o.apply (memWrite a b s) := by
  unfold memWrite
  split_ifs <;> rfl

theorem loadReg_overlay (k : Nat) (s : State) : loadReg k (o.apply s) = onEnd o.apply (loadReg k s) := by
  have haddr : effAddr (o.apply s) k = effAddr s k := rfl
  unfold loadReg memRead
  rw [haddr]
  split_ifs <;> rfl

/-- Stores of bytes that do not come from what is changed. -/
theorem storesFromI_overlay {f : Nat → State → Byte} (hf : ∀ k t, f k (o.apply t) = f k t) (n : Nat) (s : State) :
    storesFromI f n (o.apply s) = onEnd o.apply (storesFromI f n s) := by
  refine forUpTo_comm (fun k t => ?_) n s
  rw [hf]
  exact memWrite_overlay o _ _ t

variable (hfb : o.fb = id)
include hfb

/-- A bit is drawn alike where the picture is not changed. -/
theorem drawBit_overlay (x y : Reg) (b : Byte) (row col : Nat) (s : State) :
    drawBit x y b row col (o.apply s) = o.apply (drawBit x y b row col s) := by
  obtain ⟨fb, st, stack⟩ := o
  obtain rfl : fb = id := hfb
  have hpixel : ∀ r c, (Overlay.apply ⟨id, st, stack⟩ s).pixel r c = s.pixel r c := fun _ _ => rfl
  have hrow : pixelRow y row (Overlay.apply ⟨id, st, stack⟩ s) = pixelRow y row s := rfl
  have hcol : pixelCol x col (Overlay.apply ⟨id, st, stack⟩ s) = pixelCol x col s := rfl
  unfold drawBit drawPixel
  rw [hpixel, hrow, hcol]
  split_ifs <;> rfl

theorem iterUpTo_drawBit_overlay (x y : Reg) (b : Byte) (row n : Nat) (s : State) :
    iterUpTo (drawBit x y b row) n (o.apply s) = o.apply (iterUpTo (drawBit x y b row) n s) := by
  induction n with
  | zero => rfl
  | succ n ih => rw [iterUpTo, iterUpTo, ih, drawBit_overlay o hfb]

theorem drawRow_overlay (x y : Reg) (row : Nat) (s : State) :
    drawRow x y row (o.apply s) = onEnd o.apply (drawRow x y row s) := by
  have haddr : effAddr (o.apply s) row = effAddr s row := rfl
  rcases Nat.lt_or_ge (effAddr s row) Config.memSize with hlt | hge
  · rw [drawRow, drawRow, haddr, memRead_of_lt _ hlt, memRead_of_lt _ hlt]
    exact congrArg Except.ok (iterUpTo_drawBit_overlay o hfb x y _ row 8 s)
  · rw [drawRow, drawRow, haddr, memRead_of_ge _ hge, memRead_of_ge _ hge]
    rfl

end Operations

/-- Every instruction does the same under the change, as long as it writes no field that is changed. -/
theorem exec_overlay {o : Overlay} {i : Instr} {s t : State} (hfb : writesFb i = true → o.fb = id)
    (hst : writesSt i = true → o.st = id) (hstack : writesSp i = true → o.stack = id) (h : exec i s = .next t) :
    exec i (o.apply s) = .next (o.apply t) := by
  cases i with
  | cls =>
    obtain ⟨fb, st, stack⟩ := o
    obtain rfl : fb = id := hfb rfl
    cases h
    rfl
  | drw x y n =>
    exact (congrArg finish (forUpTo_comm (drawRow_overlay o (hfb rfl) x y) _ _)).trans (finish_onEnd h)
  | ldStVx x =>
    obtain ⟨fb, st, stack⟩ := o
    obtain rfl : st = id := hst rfl
    cases h
    rfl
  | ret =>
    obtain ⟨fb, st, stack⟩ := o
    obtain rfl : stack = id := hstack rfl
    rcases Nat.eq_zero_or_pos s.sp.val with hzero | hpos
    · cases (exec_ret_of_empty s hzero).symm.trans h
      exact exec_ret_of_empty (Overlay.apply ⟨fb, st, id⟩ s) hzero
    · cases (exec_ret_of_pos s hpos).symm.trans h
      exact exec_ret_of_pos (Overlay.apply ⟨fb, st, id⟩ s) hpos
  | call nnn =>
    obtain ⟨fb, st, stack⟩ := o
    obtain rfl : stack = id := hstack rfl
    rcases Nat.lt_or_ge s.sp.val 16 with hlt | hge
    · cases (exec_call_of_lt nnn s hlt).symm.trans h
      exact exec_call_of_lt nnn (Overlay.apply ⟨fb, st, id⟩ s) hlt
    · have hfull : s.sp.val = 16 := by omega
      cases (exec_call_of_full nnn s hfull).symm.trans h
      exact exec_call_of_full nnn (Overlay.apply ⟨fb, st, id⟩ s) hfull
  | seImm x kk | sneImm x kk | seReg x y | sneReg x y =>
    cases h
    exact congrArg _ (skipIf_overlay o _ s)
  | skp x =>
    rcases Nat.lt_or_ge 15 (s.getV x).toNat with hgt | hle
    · cases (exec_skp_of_gt hgt).symm.trans h
      exact exec_skp_of_gt (s := o.apply s) hgt
    · cases (exec_skp_of_le hle).symm.trans h
      exact (exec_skp_of_le (s := o.apply s) hle).trans (congrArg _ (skipIf_overlay o _ s))
  | sknp x =>
    rcases Nat.lt_or_ge 15 (s.getV x).toNat with hgt | hle
    · cases (exec_sknp_of_gt hgt).symm.trans h
      exact exec_sknp_of_gt (s := o.apply s) hgt
    · cases (exec_sknp_of_le hle).symm.trans h
      exact (exec_sknp_of_le (s := o.apply s) hle).trans (congrArg _ (skipIf_overlay o _ s))
  | ldVxK x =>
    cases hkey : s.lowestKey with
    | none =>
      have hup := lowestKey_eq_none.mp hkey
      cases (exec_ldVxK_of_none x hup).symm.trans h
      exact exec_ldVxK_of_none (s := o.apply s) x hup
    | some k =>
      obtain ⟨hdown, hleast⟩ := lowestKey_eq_some.mp hkey
      cases (exec_ldVxK_of_least x hdown hleast).symm.trans h
      exact exec_ldVxK_of_least (s := o.apply s) x hdown hleast
  | ldB x =>
    rw [exec_ldB_eq] at h ⊢
    exact (congrArg finish (storesFromI_overlay o (fun _ _ => rfl) 3 s)).trans (finish_onEnd h)
  | stRegs x =>
    rw [exec_stRegs_eq] at h ⊢
    exact (congrArg finish (storesFromI_overlay o (fun _ _ => rfl) _ s)).trans (finish_onEnd h)
  | ldRegs x => exact (congrArg finish (forUpTo_comm (loadReg_overlay o) _ s)).trans (finish_onEnd h)
  | _ =>
    cases h
    rfl

/-- Settles O53: the change of the picture alone. -/
theorem onlyDrawReadsTheFramebuffer : Obligations.OnlyDrawReadsTheFramebuffer := by
  intro i s t picture hnot h
  exact exec_overlay (o := { fb := fun _ => picture }) (fun hwrites => by simp [hnot] at hwrites) (fun _ => rfl)
    (fun _ => rfl) h

/-- Settles O52: the change of `ST` alone; Fx18 overwrites it with a register. -/
theorem noInstructionReadsST : Obligations.NoInstructionReadsST := by
  intro i s t b h
  cases hwrites : writesSt i with
  | false =>
    exact exec_overlay (o := { st := fun _ => b }) (fun _ => rfl) (fun h' => by simp [hwrites] at h') (fun _ => rfl) h
  | true =>
    obtain ⟨x, rfl⟩ : ∃ x, i = .ldStVx x := by cases i <;> simp [writesSt] at hwrites ⊢
    cases h
    rfl

/-! ### Dead stack entries (10_state.md section 5, D2) -/

/-- `SP` and the entries of an instruction that is neither RET nor CALL are as before. -/
theorem stack_eq_of_exec {i : Instr} {s t : State} (hnot : writesSp i = false) (h : exec i s = .next t) :
    t.sp = s.sp ∧ t.stack = s.stack := by
  have hframe := (ends_of_exec h).frame
  have hentry : entryWritten s i = none := by cases i <;> simp [writesSp, entryWritten] at hnot ⊢
  exact ⟨hframe.sp hnot, Vector.ext fun k hk => hframe.stack k hk (by simp [hentry])⟩

/-- The state with other stack entries, those that are live kept. -/
theorem sameButDeadStack_iff {s s' : State} : SameButDeadStack s s' ↔ ∃ entries : Vector Word 16,
    s' = { s with stack := entries } ∧ ∀ (k : Nat) (h : k < 16), k < s.sp.val → entries[k]'h = s.stack[k]'h := by
  constructor
  · exact fun ⟨heq, hlive⟩ => ⟨_, heq, hlive⟩
  · rintro ⟨entries, rfl, hlive⟩
    exact ⟨rfl, hlive⟩

/-- Where `f` answers a next state in `s`, it answers one in `s'`, and the two differ in dead entries alone. -/
def StepsAlike (f : State → Host.Outcome State Fault Refusal) (s s' : State) : Prop :=
  ∀ t, f s = .next t → ∃ t', f s' = .next t' ∧ SameButDeadStack t t'

section DeadEntries

variable {s : State} {entries : Vector Word 16}
  (hlive : ∀ (k : Nat) (h : k < 16), k < s.sp.val → entries[k]'h = s.stack[k]'h)
include hlive

theorem ret_stepsAlike : StepsAlike (exec .ret) s { s with stack := entries } := by
  intro t h
  rcases Nat.eq_zero_or_pos s.sp.val with hzero | hpos
  · cases (exec_ret_of_empty s hzero).symm.trans h
    exact ⟨_, exec_ret_of_empty { s with stack := entries } hzero, rfl, hlive⟩
  · cases (exec_ret_of_pos s hpos).symm.trans h
    have htop := hlive (s.sp.val - 1) (by omega) (by omega)
    have hret := exec_ret_of_pos { s with stack := entries } hpos
    simp only [htop] at hret
    exact ⟨_, hret, rfl, fun k hk hlt => hlive k hk (hlt.trans_le (Nat.sub_le _ _))⟩

theorem call_stepsAlike (nnn : Addr) : StepsAlike (exec (.call nnn)) s { s with stack := entries } := by
  intro t h
  rcases Nat.lt_or_ge s.sp.val 16 with hlt | hge
  · cases (exec_call_of_lt nnn s hlt).symm.trans h
    refine ⟨_, exec_call_of_lt nnn { s with stack := entries } hlt, rfl, fun k hk hlive' => ?_⟩
    rcases Nat.lt_succ_iff_lt_or_eq.mp hlive' with hold | rfl
    · simpa [Vector.getElem_set_ne hlt hk hold.ne'] using hlive k hk hold
    · simp
  · have hfull : s.sp.val = 16 := by omega
    cases (exec_call_of_full nnn s hfull).symm.trans h
    exact ⟨_, exec_call_of_full nnn { s with stack := entries } hfull, rfl, hlive⟩

theorem exec_stepsAlike (i : Instr) : StepsAlike (exec i) s { s with stack := entries } := by
  intro t h
  cases hwrites : writesSp i with
  | false =>
    obtain ⟨hsp, hstack⟩ := stack_eq_of_exec hwrites h
    refine ⟨{ t with stack := entries }, ?_, rfl, fun k hk hlt => ?_⟩
    · exact exec_overlay (o := { stack := fun _ => entries }) (fun _ => rfl) (fun _ => rfl)
        (fun h' => by simp [hwrites] at h') h
    · rw [hsp] at hlt
      simpa only [hstack] using hlive k hk hlt
  | true =>
    obtain rfl | ⟨nnn, rfl⟩ : i = .ret ∨ ∃ nnn, i = .call nnn := by cases i <;> simp [writesSp] at hwrites ⊢
    · exact ret_stepsAlike hlive t h
    · exact call_stepsAlike hlive nnn t h

/-- The two states fetch the same word, and the cycle runs it in both. -/
theorem cycle_stepsAlike : StepsAlike cycle s { s with stack := entries } := by
  intro t h
  by_cases hrun : Runs s
  · rcases Nat.lt_or_ge 4094 s.pc.toNat with habove | hin
    · cases (cycle_of_fetch_fault hrun habove).symm.trans h
      exact ⟨_, cycle_of_fetch_fault (s := { s with stack := entries }) hrun habove, rfl, hlive⟩
    · have hcycle := cycle_of_fetch (s := { s with stack := entries }) hrun hin
      have hword : wordAt { s with stack := entries } s.pc.toNat = wordAt s s.pc.toNat := rfl
      rw [hword] at hcycle
      rw [cycle_of_fetch hrun hin] at h
      cases hdecode : decodeWord (wordAt s s.pc.toNat) with
      | ok i =>
        rw [runWord_of_ok _ hdecode] at h hcycle
        rw [hcycle]
        exact exec_stepsAlike (s := s.advance) hlive i t h
      | error e =>
        rw [runWord_of_error _ hdecode] at h hcycle
        cases h
        exact ⟨_, hcycle, rfl, hlive⟩
  · cases (cycle_of_halted hrun).symm.trans h
    exact ⟨_, cycle_of_halted (s := { s with stack := entries }) hrun, rfl, hlive⟩

theorem applyEvent_stepsAlike (e : Event) : StepsAlike (applyEvent e) s { s with stack := entries } := by
  intro t h
  cases e with
  | cycle => exact cycle_stepsAlike hlive t h
  | reset =>
    cases h
    exact ⟨_, rfl, rfl, fun _ _ _ => rfl⟩
  | load rom =>
    rcases Nat.lt_or_ge Config.romMax rom.length with hgt | hle
    · cases (applyEvent_load_of_gt s hgt).symm.trans h
      exact ⟨_, applyEvent_load_of_gt _ hgt, rfl, hlive⟩
    · cases (applyEvent_load_of_le s hle).symm.trans h
      exact ⟨_, applyEvent_load_of_le _ hle, rfl, hlive⟩
  | setKey k pressed =>
    by_cases hk : k < 16
    · cases (applyEvent_setKey_of_lt pressed s hk).symm.trans h
      exact ⟨_, applyEvent_setKey_of_lt pressed _ hk, rfl, hlive⟩
    · cases (applyEvent_setKey_of_ge pressed s hk).symm.trans h
  | tick | readFb =>
    cases h
    exact ⟨_, rfl, rfl, hlive⟩

end DeadEntries

/-- Settles O51: the two states have one schedule, and its next event does the same in both. -/
theorem deadStackEntriesAreUnobservable : Obligations.DeadStackEntriesAreUnobservable := by
  intro s s' t hsame h
  obtain ⟨entries, rfl, hlive⟩ := sameButDeadStack_iff.mp hsame
  rcases step_cases s with ⟨hsched, hstep⟩ | ⟨e, rest, hsched, hstep⟩
  · rw [step_of_cycleNext (s := { s with stack := entries }) (.inl hsched)]
    rw [step_of_cycleNext (.inl hsched)] at h
    exact cycle_stepsAlike (s := afterEvent s) hlive t h
  · rw [step_of_sched_cons (s := { s with stack := entries }) hsched]
    rw [hstep] at h
    exact applyEvent_stepsAlike (s := { s with sched := rest }) hlive e t h

end Sys2Proof.Proofs
end

section
/-! Steps and cycles: every step answers (60_exceptions.md section 8), the halt (section 4, D7), the two idle cycles, a
store into the next instruction (20_memory.md section 8), and a RET after its CALL (40_cycle_and_flow.md section 3). -/

namespace Sys2Proof.Proofs

open Sys2Proof.Machine Sys2Proof.Safety Sys2Proof.Laws

/-! ### Every step answers (O9) -/

theorem exec_answers (i : Instr) (s : State) : ∃ t, exec i s = .next t := by
  obtain ⟨t, hexec, -⟩ := exec_ends i s
  exact ⟨t, hexec⟩

theorem cycle_answers (s : State) : ∃ t, cycle s = .next t := by
  rcases cycle_cases s with ⟨-, h⟩ | ⟨-, -, h⟩ | ⟨-, -, _, _, -, -, h⟩ | ⟨-, -, _, i, -, -, h⟩
  · exact ⟨_, h⟩
  · exact ⟨_, h⟩
  · exact ⟨_, h⟩
  · rw [h]
    exact exec_answers i _

/-- An event answers a next state, but for `SET_KEY` outside its domain. -/
theorem applyEvent_answers (e : Event) (s : State) : (∃ t, applyEvent e s = .next t) ∨
    ∃ k pressed, e = .setKey k pressed ∧ 15 < k ∧ applyEvent e s = .refused (.setKeyOutsideDomain k) := by
  cases e with
  | cycle => exact .inl (cycle_answers s)
  | setKey k pressed =>
    by_cases hk : k < 16
    · exact .inl ⟨_, applyEvent_setKey_of_lt pressed s hk⟩
    · exact .inr ⟨k, pressed, rfl, Nat.not_lt.mp hk, applyEvent_setKey_of_ge pressed s hk⟩
  | reset | load rom | tick | readFb => exact .inl ⟨_, rfl⟩

/-- Settles O9: instructions by `exec_ends`, steps by their event. -/
theorem everyStepAnswers : Obligations.EveryStepAnswers := by
  refine ⟨exec_answers, fun s => ?_⟩
  rcases step_cases s with ⟨-, hstep⟩ | ⟨e, rest, hsched, hstep⟩
  · rw [hstep]
    exact .inl (cycle_answers s)
  · rcases applyEvent_answers e { s with sched := rest } with ⟨t, ht⟩ | ⟨k, pressed, rfl, hk, hrefused⟩
    · exact .inl ⟨t, hstep.trans ht⟩
    · exact .inr ⟨k, pressed, rest, hsched, hk, hstep.trans hrefused⟩

/-! ### The halt (O10) -/

/-- On a halted core an event other than `RESET` writes memory, the keys and the timers at most. -/
theorem applyEvent_of_halted {e : Event} {s t : State} (hhalt : ¬ Runs s) (hreset : e ≠ .reset)
    (h : applyEvent e s = .next t) : t = { s with mem := t.mem, keys := t.keys, dt := t.dt, st := t.st } := by
  cases e with
  | cycle =>
    cases (cycle_of_halted hhalt).symm.trans h
    rfl
  | reset => exact absurd rfl hreset
  | load rom =>
    rcases Nat.lt_or_ge Config.romMax rom.length with hgt | hle
    · cases (applyEvent_load_of_gt s hgt).symm.trans h
      rfl
    · cases (applyEvent_load_of_le s hle).symm.trans h
      rfl
  | setKey k pressed =>
    by_cases hk : k < 16
    · cases (applyEvent_setKey_of_lt pressed s hk).symm.trans h
      rfl
    · cases (applyEvent_setKey_of_ge pressed s hk).symm.trans h
  | tick | readFb =>
    cases h
    rfl

/-- Settles O10: a `CYCLE` does nothing, and what the other events write is not listed. -/
theorem onlyResetLeavesTheHalt : Obligations.OnlyResetLeavesTheHalt := by
  intro s t hhalt h hreset
  rcases step_cases s with ⟨-, hstep⟩ | ⟨e, rest, hsched, hstep⟩
  · cases (hstep.trans (cycle_of_halted hhalt)).symm.trans h
    exact ⟨rfl, rfl, rfl, rfl, rfl, rfl, rfl⟩
  · have he : e ≠ .reset := fun heq => hreset (by rw [hsched, heq, List.head?_cons])
    rw [applyEvent_of_halted (s := { s with sched := rest }) hhalt he (hstep.symm.trans h)]
    exact ⟨rfl, rfl, rfl, rfl, rfl, rfl, rfl⟩

/-! ### Idle cycles (O8, O38) -/

/-- With nothing else scheduled, a running core executes the instruction whose word lies at `pc`. -/
theorem step_of_word {s : State} {i : Instr} (hrun : Runs s) (hsched : s.sched = []) (hpc : s.pc.toNat ≤ 4094)
    (hdecode : decodeWord (wordAt s s.pc.toNat) = .ok i) : step s = exec i s.advance := by
  rw [step_of_fetch hrun (.inl hsched) hpc, runWord_of_ok _ hdecode, afterEvent_nil hsched]
  rfl

/-- Settles O8: the jump undoes the advance of the fetch. -/
theorem selfJumpIsAFixedPoint : Obligations.SelfJumpIsAFixedPoint := by
  intro s nnn hrun hsched hpc hnnn hword
  have htarget : wordOfAddr nnn = s.pc := BitVec.eq_of_toNat_eq ((wordOfAddr_toNat nnn).trans hnnn)
  have hjump : exec (.jp nnn) s.advance = .next (s.advance.jumpTo (wordOfAddr nnn)) := rfl
  rw [step_of_word hrun hsched hpc (hword ▸ decodeWord_patNnn_jp nnn), hjump, htarget]
  rfl

/-- Settles O38: with every key up `Fx0A` takes back the advance of the fetch. -/
theorem keyWaitCycleIsIdle : Obligations.KeyWaitCycleIsIdle := by
  intro x s hrun hsched hpc hword hkeys
  have hup : ∀ k : Fin 16, s.advance.keyDown k = false := fun k => by
    rw [State.keyDown, advance_keys, hkeys]
    exact BitVec.getLsbD_zero
  have hdecode : decodeWord (wordAt s s.pc.toNat) = .ok (.ldVxK x) :=
    hword ▸ decodeWord_patXkk_groupF 0x0A (by simp [decodeGroupF])
  have hpc' : s.advance.rewind = s := by
    have hback : s.pc + 2 - 2 = s.pc := BitVec.add_sub_cancel _ _
    exact congrArg (fun w : Word => { s with pc := w }) hback
  rw [step_of_word hrun hsched hpc hdecode, exec_ldVxK_of_none x hup, hpc']

/-! ### A store into the next instruction (O31) -/

/-- Settles O31: the store leaves `pc` and the schedule, so the fetch after it reads `V[0]` and `V[1]`. -/
theorem storeIsSeenByTheNextFetch : Obligations.StoreIsSeenByTheNextFetch := by
  intro x s t j hwf hrun hnext hx hi hle hexec hdecode
  obtain ⟨-, hstore, -⟩ := storeRegistersOrFault x s hwf
  obtain ⟨t', hexec', ⟨ht, -, -⟩, hread⟩ := hstore hle
  cases hexec.symm.trans hexec'
  have hpc : t.pc = s.pc := by rw [ht]
  have hrun' : Runs t := by rwa [Runs, ht]
  have hnext' : CycleNext t := by rwa [CycleNext, ht]
  have hbyte0 : t.readByte t.pc.toNat = s.getV 0 := by
    rw [hpc, ← hi]
    exact hread 0 (Fin.zero_le x)
  have hbyte1 : t.readByte (t.pc.toNat + 1) = s.getV 1 := by
    rw [hpc, ← hi]
    exact hread 1 (Fin.le_def.mpr hx)
  have hword : wordAt t t.pc.toNat = BitVec.ofNat 16 ((s.getV 0).toNat * 256 + (s.getV 1).toNat) := by
    rw [wordAt, hbyte0, hbyte1]
  have hin : t.pc.toNat ≤ 4094 := by
    rw [hpc, ← hi]
    omega
  rw [step_of_fetch hrun' hnext' hin, runWord_of_ok _ (hword ▸ hdecode)]

/-! ### A RET after its CALL (O15) -/

/-- Settles O15: the entry the CALL pushed is the newest live one. -/
theorem retReturnsAfterItsCall : Obligations.RetReturnsAfterItsCall := by
  intro nnn s t u hlt hcall hsp hlive
  cases (exec_call_of_lt nnn s hlt).symm.trans hcall
  have hval : u.sp.val = s.sp.val + 1 := congrArg Fin.val hsp
  have hpos : 0 < u.sp.val := by omega
  refine ⟨_, exec_ret_of_pos u hpos, ?pc, ?sp, rfl⟩
  case pc =>
    have htop := hlive s.sp.val hlt (Nat.lt_succ_self _)
    simpa [hval] using htop
  case sp => exact Fin.ext (by simp [hval])

end Sys2Proof.Proofs
end

section
/-! The register-15 forms and the random byte (42_load_and_alu.md sections 1 and 5). -/

namespace Sys2Proof.Proofs

open Sys2Proof.Machine Sys2Proof.Safety Sys2Proof.Laws

/-! ### Register 15 (O24) -/

/-- A flag byte as a number. -/
theorem ite_byte_toNat (c : Prop) [Decidable c] : (if c then 1 else 0 : Byte).toNat = if c then 1 else 0 := by
  split_ifs <;> rfl

/-- A difference of bytes as numbers, modulo 256. -/
theorem byte_sub_toNat (a b : Byte) : (a - b).toNat = (a.toNat + 256 - b.toNat) % 256 := by
  rw [BitVec.toNat_sub]
  omega

/-- Taking the flag of `b < a` away from `a` does not wrap. -/
theorem byte_sub_flag_toNat (a b : Byte) :
    (a - if b.toNat < a.toNat then 1 else 0).toNat = a.toNat - if b.toNat < a.toNat then 1 else 0 := by
  rw [byte_sub_toNat, ite_byte_toNat]
  split_ifs <;> omega

/-- Settles O24: the statements on 8xy4, 8xy5 and 8xy7 at register 15, with their bytes read as numbers. -/
theorem registerFifteenForms : Obligations.RegisterFifteenForms := by
  rintro x y s _ _ _ rfl rfl rfl
  refine ⟨?add15, fun hx => ?addx, fun hy => ?sub15, fun hx => ?subx, fun hy => ?subn15, fun hx => ?subnx, ?subBoth,
    ?subnBoth⟩
  case add15 =>
    obtain ⟨-, t, hexec, hsum, -⟩ := addWithCarry 15 y s
    exact ⟨t, hexec, hsum⟩
  case addx =>
    obtain ⟨-, t, hexec, hsum, hcarry, -⟩ := addWithCarry x 15 s
    refine ⟨t, hexec, hsum, ?_⟩
    rw [hcarry hx, ite_byte_toNat]
    split_ifs <;> omega
  case sub15 =>
    obtain ⟨-, hsub⟩ := subtractWithFlag 15 y s
    obtain ⟨t, hexec, hdiff, -⟩ := hsub _ rfl
    refine ⟨t, hexec, ?_⟩
    rw [hdiff, if_pos rfl, if_neg hy, byte_sub_toNat, ite_byte_toNat]
  case subx =>
    obtain ⟨-, hsub⟩ := subtractWithFlag x 15 s
    obtain ⟨t, hexec, hdiff, hflag, -⟩ := hsub _ rfl
    refine ⟨t, hexec, ?_, by rw [hflag hx, ite_byte_toNat]⟩
    rw [hdiff, if_neg hx, if_pos rfl]
    exact byte_sub_flag_toNat _ _
  case subn15 =>
    obtain ⟨-, hsub⟩ := subtractReversedWithFlag 15 y s
    obtain ⟨t, hexec, hdiff, -⟩ := hsub _ rfl
    refine ⟨t, hexec, ?_⟩
    rw [hdiff, if_neg hy, if_pos rfl]
    exact byte_sub_flag_toNat _ _
  case subnx =>
    obtain ⟨-, hsub⟩ := subtractReversedWithFlag x 15 s
    obtain ⟨t, hexec, hdiff, hflag, -⟩ := hsub _ rfl
    refine ⟨t, hexec, ?_, by rw [hflag hx, ite_byte_toNat]⟩
    rw [hdiff, if_pos rfl, if_neg hx, byte_sub_toNat, ite_byte_toNat]
  case subBoth =>
    obtain ⟨-, hsub⟩ := subtractWithFlag 15 15 s
    obtain ⟨t, hexec, hdiff, -⟩ := hsub _ rfl
    exact ⟨t, hexec, hdiff.trans (BitVec.sub_self _)⟩
  case subnBoth =>
    obtain ⟨-, hsub⟩ := subtractReversedWithFlag 15 15 s
    obtain ⟨t, hexec, hdiff, -⟩ := hsub _ rfl
    exact ⟨t, hexec, hdiff.trans (BitVec.sub_self _)⟩

/-! ### The random byte (O25) -/

theorem decodeWord_patXkk_rnd (x : Reg) (kk : Byte) : decodeWord (patXkk 0xC x kk) = .ok (.rnd x kk) := by
  have hword : patXkk 0xC x kk = wordXkk 0xC x kk := patXkk_eq 0xC x kk
  simp [hword, decodeWord]

/-- Settles O25: the byte is one register write of a conjunction with `kk`, whatever the other operand. -/
theorem randomIsMasked : Obligations.RandomIsMasked := by
  intro x kk s
  have hval : ((draw s).2.setV x (Config.draw8 s.draws &&& kk)).getV x = Config.draw8 s.draws &&& kk :=
    getV_setV_same _ _ _
  obtain ⟨-, hkept, -⟩ := onlyRegs_setV s (Config.draw8 s.draws &&& kk) (List.mem_singleton_self x)
  refine ⟨decodeWord_patXkk_rnd x kk, _, rfl, hval, ?le, fun b hb => ?bits, rfl, hkept, fun _ _ => rfl⟩
  case le =>
    rw [draw_fst, hval, BitVec.toNat_and]
    exact Nat.and_le_right
  case bits => rw [draw_fst, hval, BitVec.getLsbD_and, hb, Bool.and_false]

end Sys2Proof.Proofs
end

section
/-! A sprite drawn twice at one place (44_display.md, corner cases of `Dxyn`). -/

namespace Sys2Proof.Proofs

open Sys2Proof.Machine Sys2Proof.Safety

/-- Drawing leaves alone what a sprite away from register 15 is drawn from, so a second one covers the same pixels. -/
theorem covers_of_onlyDisplay {x y : Reg} (hx : x ≠ 15) (hy : y ≠ 15) {s t : State} (h : OnlyDisplay s t) (n : Nat)
    (r : Fin 32) (c : Fin 64) : covers x y n t r c ↔ covers x y n s r c := by
  obtain ⟨ht, hregs, hmem⟩ := h
  have hi : t.i = s.i := by rw [ht]
  have hsprite : ∀ row col, spriteAt t row col = spriteAt s row col := fun row col => by
    rw [spriteAt, spriteAt, hi, hmem _ List.not_mem_nil]
  have hvx : t.getV x = s.getV x := hregs x (by simpa using hx)
  have hvy : t.getV y = s.getV y := hregs y (by simpa using hy)
  simp only [covers, hsprite, hvx, hvy]

/-- Settles O35: the covered pixels are the same both times, and two flips of a pixel restore it. -/
theorem drawTwiceRestores : Obligations.DrawTwiceRestores := by
  intro x y n s t hx hy hn hexec
  obtain ⟨t', hexec', honly, hpixels, -⟩ := drawFlipsExactlyTheCoveredPixels x y n s hx hy hn
  cases hexec.symm.trans hexec'
  have hi : t.i = s.i := by
    obtain ⟨ht, -⟩ := honly
    rw [ht]
  have hcovers := covers_of_onlyDisplay hx hy honly n.toNat
  obtain ⟨u, hexec₂, -, hpixels₂, hflag, -⟩ := drawFlipsExactlyTheCoveredPixels x y n t hx hy (hi ▸ hn)
  refine ⟨u, hexec₂, fb_ext fun r c => ?restored, hflag.trans (exists₂_congr fun r c => ?flag)⟩
  case restored =>
    obtain ⟨hflip, hkeep⟩ := hpixels r c
    obtain ⟨hflip₂, hkeep₂⟩ := hpixels₂ r c
    by_cases hcov : covers x y n.toNat s r c
    · rw [hflip₂ ((hcovers r c).mpr hcov), hflip hcov, Bool.not_not]
    · rw [hkeep₂ (mt (hcovers r c).mp hcov), hkeep hcov]
  case flag =>
    rw [hcovers]
    refine and_congr_right fun hcov => ?_
    rw [(hpixels r c).1 hcov, Bool.not_eq_true']

end Sys2Proof.Proofs
end

section
/-! The fault register as one word (10_state.md section 10), and `TICK` (60_exceptions.md section 7). -/

namespace Sys2Proof.Proofs

open Sys2Proof.Machine Sys2Proof.Safety

/-! ### The fault register (O41) -/

/-- A cause has code 0 exactly when it is none. -/
theorem code_eq_zero_iff (k : FaultCause) : k.code.toNat = 0 ↔ k = .none := by
  cases k <;> decide

/-- Settles O41: `info` stands above the three bits of the code. -/
theorem faultRegisterLayout : Obligations.FaultRegisterLayout := by
  refine ⟨⟨rfl, rfl, rfl, rfl, rfl, rfl⟩, fun s => ?_⟩
  have hword : s.faultWord.toNat = s.fault.info.toNat * 8 + s.fault.cause.code.toNat := toNat_append_add _ _
  have hcode := s.fault.cause.code.isLt
  refine ⟨hword, ?_⟩
  rw [Runs, ← code_eq_zero_iff, hword]
  omega

/-! ### `TICK` (O45) -/

/-- A timer counts down by one and stops at 0 (R212). -/
theorem countDown_toNat (b : Byte) : (countDown b).toNat = b.toNat - 1 := by
  unfold countDown
  split_ifs with hzero
  · rw [hzero]
    rfl
  · have hpos : b.toNat ≠ 0 := fun h => hzero (BitVec.eq_of_toNat_eq h)
    bv_omega

/-- Settles O45: both timers count down, and `tick` writes nothing else. -/
theorem tickCountsBothTimersDown : Obligations.TickCountsBothTimersDown := by
  intro s rest hsched
  exact ⟨_, step_of_sched_cons hsched, countDown_toNat s.dt, countDown_toNat s.st, rfl⟩

end Sys2Proof.Proofs
end
